-- ==== Sys2Proof/Word.lean ====
section
/-!
DEFINITION. The two word sizes of the hardware (spec/00_scope.md R10): `u8` and `u16`, both unsigned.
`+` and `-` on them wrap modulo 2^8 and 2^16 (R9, R10).
-/

namespace Sys2Proof

/-- `u8`: an opcode byte, a register-ordinal byte, a byte of a device (R10). -/
abbrev Byte := BitVec 8

/-- `u16`: a register, a literal, an address (R10). -/
abbrev Word := BitVec 16

end Sys2Proof
end

