-- ==== Sys2Proof/Syntax.lean ====
section
/-!
DEFINITION. The instruction set as syntax: the twelve registers (spec/10_state.md R20), the thirteen mnemonics
(spec/00_scope.md R3), and one constructor of `Instr` per row of spec/opcode_table.json (spec/30_encoding.md R77).
Register operands are register names, so no instruction term names a register the machine lacks.
-/

namespace Sys2Proof

/-- The register file's twelve registers, in the order of R20. -/
inductive Reg where
  | ip | acc | r1 | r2 | r3 | r4 | r5 | r6 | r7 | r8 | sp | fp
deriving DecidableEq, Repr

/-- The thirteen mnemonics of R3. -/
inductive Mnemonic where
  | movLitReg | movRegReg | movRegMem | movMemReg | addRegReg | jmpNotEq
  | pshLit | pshReg | pop | calLit | calReg | ret | hlt
deriving DecidableEq, Repr

/-- The instructions, operands in fetch order (R77). -/
inductive Instr where
  /-- MOV_LIT_REG lit16 dst (R90). -/
  | movLitReg (v : Word) (d : Reg)
  /-- MOV_REG_REG src dst (R91). -/
  | movRegReg (r d : Reg)
  /-- MOV_REG_MEM src addr16 (R92). -/
  | movRegMem (r : Reg) (a : Word)
  /-- MOV_MEM_REG addr16 dst (R93). -/
  | movMemReg (a : Word) (d : Reg)
  /-- ADD_REG_REG r1 r2 (R100). -/
  | addRegReg (p q : Reg)
  /-- JMP_NOT_EQ lit16 addr16 (R105). -/
  | jmpNotEq (v t : Word)
  /-- PSH_LIT lit16 (R114). -/
  | pshLit (v : Word)
  /-- PSH_REG src (R115). -/
  | pshReg (r : Reg)
  /-- POP dst (R116). -/
  | pop (d : Reg)
  /-- CAL_LIT addr16 (R122). -/
  | calLit (t : Word)
  /-- CAL_REG src (R123). -/
  | calReg (r : Reg)
  /-- RET (R124). -/
  | ret
  /-- HLT (R135). -/
  | hlt
deriving DecidableEq, Repr

/-- The mnemonic of an instruction. -/
def Instr.mnemonic : Instr → Mnemonic
  | .movLitReg _ _ => .movLitReg
  | .movRegReg _ _ => .movRegReg
  | .movRegMem _ _ => .movRegMem
  | .movMemReg _ _ => .movMemReg
  | .addRegReg _ _ => .addRegReg
  | .jmpNotEq _ _ => .jmpNotEq
  | .pshLit _ => .pshLit
  | .pshReg _ => .pshReg
  | .pop _ => .pop
  | .calLit _ => .calLit
  | .calReg _ => .calReg
  | .ret => .ret
  | .hlt => .hlt

/-- Every mnemonic, in the order of R79's table. -/
def Mnemonic.all : List Mnemonic :=
  [.movLitReg, .movRegReg, .movRegMem, .movMemReg, .addRegReg, .jmpNotEq,
   .pshLit, .pshReg, .pop, .calLit, .calReg, .ret, .hlt]

end Sys2Proof
end

