-- ==== Sys2Proof/Config.lean ====
section
/-!
DEFINITION. The parameters of spec/00_scope.md R8, as plain data, and the free values of the peripherals
(spec/20_memory.md R46). A `Config` is fixed for a run: no instruction changes it (head of spec/10_state.md, R51).
`Machine.State` carries one, so that the step takes the parameters as an argument (log 5).
-/

namespace Sys2Proof

/-- `REG_ORDINAL_POLICY` (R75): what a register-ordinal byte of 12 or more does (log 2). -/
inductive OrdinalPolicy where
  /-- raise InvalidRegister -/
  | fault
  /-- take the ordinal modulo 12 -/
  | mask
deriving DecidableEq, Repr

/-- `OPCODE_BYTE` (R79): the byte of each mnemonic (log 1). -/
structure OpcodeMap where
  movLitReg : Byte
  movRegReg : Byte
  movRegMem : Byte
  movMemReg : Byte
  addRegReg : Byte
  jmpNotEq : Byte
  pshLit : Byte
  pshReg : Byte
  pop : Byte
  calLit : Byte
  calReg : Byte
  ret : Byte
  hlt : Byte
deriving DecidableEq, Repr

/-- The byte the map gives a mnemonic. -/
def OpcodeMap.byte (m : OpcodeMap) : Mnemonic → Byte
  | .movLitReg => m.movLitReg
  | .movRegReg => m.movRegReg
  | .movRegMem => m.movRegMem
  | .movMemReg => m.movMemReg
  | .addRegReg => m.addRegReg
  | .jmpNotEq => m.jmpNotEq
  | .pshLit => m.pshLit
  | .pshReg => m.pshReg
  | .pop => m.pop
  | .calLit => m.calLit
  | .calReg => m.calReg
  | .ret => m.ret
  | .hlt => m.hlt

mutual
/-- A device the address space may be built of (R40). The identity `id` tells two devices of one kind apart, so that one
device can be reached through several regions; the contents of a memory are state, kept under its `id` (log 9). -/
inductive Device where
  /-- A plain memory device of `size` bytes (R44). -/
  | memory (id size : Nat)
  /-- A peripheral: answers every operation as it likes (R46). -/
  | peripheral (id : Nat)
  /-- A memory mapper over its regions (R49); mappers nest finitely (R56). -/
  | mapper (regions : Regions)
  deriving DecidableEq, Repr

/-- A mapper's regions, most recently mapped first (R49). A region is `(device, start, end, remap)` (R48), its range
inclusive at both ends; `last` is the spec's `end`. -/
inductive Regions where
  | nil
  | cons (device : Device) (start last : Word) (remap : Bool) (older : Regions)
  deriving DecidableEq, Repr
end

/-- The parameters that a running engine depends on (R8). -/
structure Config where
  /-- `OPCODE_BYTE` (R79) -/
  opcodes : OpcodeMap
  /-- `REG_ORDINAL_POLICY` (R75) -/
  ordinals : OrdinalPolicy
  /-- `ADDRESS_SPACE`: the one device the engine owns (R33) -/
  addressSpace : Device
deriving DecidableEq, Repr

/-- `IMAGE` (R8, R162): the program bytes and the offset they are loaded at in the primary memory device. The spec does not
say which memory of a tree is the primary one, so the host names it here by its identity. DESIGN CHOICE, safe (log 28). -/
structure Image where
  bytes : List Byte
  offset : Word
  primary : Nat
deriving DecidableEq, Repr

/-- An operation that a peripheral serviced, with the value it answered or was given (R46). -/
inductive PeripheralOp where
  | read8 (answer : Byte)
  | read16 (answer : Word)
  | write8 (v : Byte)
  | write16 (v : Word)
deriving DecidableEq, Repr

/-- One serviced operation: which peripheral, at which offset. -/
structure PeripheralEvent where
  device : Nat
  offset : Word
  op : PeripheralOp
deriving DecidableEq, Repr

/-! The oracles `PERIPHERAL` of R46 are free values: constants with no body, applied to the peripheral's id, to every
operation the peripherals serviced before (newest first) and to the offset. "Any read may return any value or fail, and any
write may succeed or fail" (R46). DESIGN CHOICE, safe (log 8). -/

/-- `read_u8` of a peripheral: a value, or none for a failure. -/
opaque Config.peripheralRead8 (id : Nat) (before : List PeripheralEvent) (offset : Word) : Option Byte

/-- `read_u16` of a peripheral. -/
opaque Config.peripheralRead16 (id : Nat) (before : List PeripheralEvent) (offset : Word) : Option Word

/-- Whether a peripheral takes a `write_u8` (true is Ok, false is Err). -/
opaque Config.peripheralWrite8 (id : Nat) (before : List PeripheralEvent) (offset : Word) (v : Byte) : Bool

/-- Whether a peripheral takes a `write_u16`. -/
opaque Config.peripheralWrite16 (id : Nat) (before : List PeripheralEvent) (offset : Word) (v : Word) : Bool

end Sys2Proof
end

