-- ==== Sys2Proof/WellFormed.lean ====
section
/-!
DEFINITION. Well-formed configurations: the constraints of spec/30_encoding.md R79 on `OPCODE_BYTE`, of spec/20_memory.md
R44 on a memory's size and of R50 on a region. A configuration that fails a check is refused, and no run starts from it
(R50). Every term of `Instr` is well-formed as it stands: its operands are register names and 16-bit words (R76: "every
lit16 and addr16 value is legal").
-/

namespace Sys2Proof

/-- R79: the 13 bytes are pairwise distinct, none is 0x00, none is 0xEE. -/
def OpcodeMap.wf (m : OpcodeMap) : Bool :=
  let bytes := Mnemonic.all.map m.byte
  !bytes.contains 0x00 && !bytes.contains 0xEE && decide bytes.Nodup

mutual
/-- R44: a memory has 1 to 65536 bytes. R50: every region of a mapper, at every level, has `start < end`. -/
def Device.wf : Device → Bool
  | .memory _ size => decide (1 ≤ size) && decide (size ≤ 65536)
  | .peripheral _ => true
  | .mapper rs => rs.wf
/-- Every region is well-formed. -/
def Regions.wf : Regions → Bool
  | .nil => true
  | .cons d start last _ older => decide (start < last) && d.wf && older.wf
end

mutual
/-- The memories in a device tree, as (id, size) pairs. -/
def Device.memories : Device → List (Nat × Nat)
  | .memory id size => [(id, size)]
  | .peripheral _ => []
  | .mapper rs => rs.memories
/-- The memories reachable through a region list. -/
def Regions.memories : Regions → List (Nat × Nat)
  | .nil => []
  | .cons d _ _ _ older => d.memories ++ older.memories
end

/-- One identity names one memory device, of one size (R44, log 9). -/
def Device.sizesAgree (d : Device) : Bool :=
  d.memories.all fun x => d.memories.all fun y => decide (x.1 = y.1 → x.2 = y.2)

/-- The configurations a run may start from (R50, R79). -/
def Config.wf (c : Config) : Bool :=
  c.opcodes.wf && c.addressSpace.wf && c.addressSpace.sizesAgree

end Sys2Proof
end

