-- ==== Sys2Proof/Decode.lean ====
section
/-!
DEFINITION. Encoding and decoding (spec/30_encoding.md R70 to R83): byte order, register ordinals, the opcode map, the
operand layout of every instruction, the decoder over a byte string and the encoder. `decodeOperands` is written once over
the two operand-fetch helpers, so the byte-string decoder here and the engine's own fetch from the address space
(Machine/Operands.lean) read every instruction by the same table.
-/

namespace Sys2Proof

/-! ### Byte order (R10, R42) -/

/-- `hi8(v) = v[15:8]`. -/
def hi8 (v : Word) : Byte := v.extractLsb' 8 8

/-- `lo8(v) = v[7:0]`. -/
def lo8 (v : Word) : Byte := v.extractLsb' 0 8

/-- `a ++ b` of two bytes: `(a << 8) | b`, the byte at the lower address first (R42). -/
def joinBytes (a b : Byte) : Word := a ++ b

/-! ### Register ordinals (R21, R75, R76) -/

/-- R21: a register's position in the order of R20. -/
def Reg.ordinal : Reg → Nat
  | .ip => 0 | .acc => 1
  | .r1 => 2 | .r2 => 3 | .r3 => 4 | .r4 => 5 | .r5 => 6 | .r6 => 7 | .r7 => 8 | .r8 => 9
  | .sp => 10 | .fp => 11

/-- The register of an ordinal, if it is one of the twelve. -/
def Reg.ofOrdinal? : Nat → Option Reg
  | 0 => some .ip | 1 => some .acc
  | 2 => some .r1 | 3 => some .r2 | 4 => some .r3 | 5 => some .r4
  | 6 => some .r5 | 7 => some .r6 | 8 => some .r7 | 9 => some .r8
  | 10 => some .sp | 11 => some .fp
  | _ => none

/-- R75: the register an ordinal byte names; `none` is InvalidRegister, under `fault` only. -/
def regOfByte (policy : OrdinalPolicy) (b : Byte) : Option Reg :=
  match policy with
  | .fault => Reg.ofOrdinal? b.toNat
  | .mask => Reg.ofOrdinal? (b.toNat % 12)

/-! ### The opcode byte (R79, R80) -/

/-- R79's default `OPCODE_BYTE`. PRESUMED, unsafe (log 1): "[from general knowledge, not in source]". -/
def OpcodeMap.default : OpcodeMap where
  movLitReg := 0x10
  movRegReg := 0x11
  movRegMem := 0x12
  movMemReg := 0x13
  addRegReg := 0x14
  jmpNotEq := 0x15
  pshLit := 0x17
  pshReg := 0x18
  pop := 0x1A
  calLit := 0x5E
  calReg := 0x5F
  ret := 0x60
  hlt := 0xFF

/-- What an opcode byte selects (R80). -/
inductive Opcode where
  | instr (k : Mnemonic)
  /-- 0x00, the end-of-program marker (R136) -/
  | endOfProgram
  /-- any other byte (R137) -/
  | unknown
deriving DecidableEq, Repr

/-- R80. -/
def decodeOpcode (m : OpcodeMap) (b : Byte) : Opcode :=
  match Mnemonic.all.find? (fun k => m.byte k == b) with
  | some k => .instr k
  | none => if b = 0x00 then .endOfProgram else .unknown

/-! ### Operands (R72, R77) -/

/-- R77's operand lists: fetch the operands of a mnemonic one at a time, in order, from any source that offers the two
operand-fetch helpers (R72). -/
def decodeOperands {σ ε : Type} (fetch16 : σ → Except ε (Word × σ)) (fetchReg : σ → Except ε (Reg × σ))
    (k : Mnemonic) (src : σ) : Except ε (Instr × σ) :=
  match k with
  | .movLitReg => do
    let (v, src) ← fetch16 src
    let (d, src) ← fetchReg src
    .ok (.movLitReg v d, src)
  | .movRegReg => do
    let (r, src) ← fetchReg src
    let (d, src) ← fetchReg src
    .ok (.movRegReg r d, src)
  | .movRegMem => do
    let (r, src) ← fetchReg src
    let (a, src) ← fetch16 src
    .ok (.movRegMem r a, src)
  | .movMemReg => do
    let (a, src) ← fetch16 src
    let (d, src) ← fetchReg src
    .ok (.movMemReg a d, src)
  | .addRegReg => do
    let (p, src) ← fetchReg src
    let (q, src) ← fetchReg src
    .ok (.addRegReg p q, src)
  | .jmpNotEq => do
    let (v, src) ← fetch16 src
    let (t, src) ← fetch16 src
    .ok (.jmpNotEq v t, src)
  | .pshLit => do
    let (v, src) ← fetch16 src
    .ok (.pshLit v, src)
  | .pshReg => do
    let (r, src) ← fetchReg src
    .ok (.pshReg r, src)
  | .pop => do
    let (d, src) ← fetchReg src
    .ok (.pop d, src)
  | .calLit => do
    let (t, src) ← fetch16 src
    .ok (.calLit t, src)
  | .calReg => do
    let (r, src) ← fetchReg src
    .ok (.calReg r, src)
  | .ret => .ok (.ret, src)
  | .hlt => .ok (.hlt, src)

/-! ### The decoder over a byte string (R83) -/

/-- Why a byte string holds no instruction. -/
inductive DecodeError where
  /-- the first byte is the 0x00 marker (R136) -/
  | endOfProgram
  /-- the first byte is no opcode (R137) -/
  | unknownOpcode (b : Byte)
  /-- a register operand's byte names no register (R75, policy `fault`) -/
  | invalidRegister (b : Byte)
  /-- the string ends before the instruction does -/
  | outOfBytes
deriving DecidableEq, Repr

/-- A 16-bit operand, high byte first (R82). -/
def takeWord : List Byte → Except DecodeError (Word × List Byte)
  | h :: l :: rest => .ok (joinBytes h l, rest)
  | _ => .error .outOfBytes

/-- A register operand (R75). -/
def takeReg (policy : OrdinalPolicy) : List Byte → Except DecodeError (Reg × List Byte)
  | b :: rest =>
    match regOfByte policy b with
    | some r => .ok (r, rest)
    | none => .error (.invalidRegister b)
  | [] => .error .outOfBytes

/-- The decoder: the instruction at the head of a byte string and the bytes after it, or the reason there is none. Total on
any bytes (R83). -/
def decode (m : OpcodeMap) (policy : OrdinalPolicy) : List Byte → Except DecodeError (Instr × List Byte)
  | [] => .error .outOfBytes
  | b :: rest =>
    match decodeOpcode m b with
    | .instr k => decodeOperands takeWord (takeReg policy) k rest
    | .endOfProgram => .error .endOfProgram
    | .unknown => .error (.unknownOpcode b)

/-! ### The encoder (R77, R85) -/

/-- A 16-bit field, `H` then `L`. -/
def encodeWord (v : Word) : List Byte := [hi8 v, lo8 v]

/-- A register field: the ordinal byte. -/
def encodeReg (r : Reg) : List Byte := [BitVec.ofNat 8 r.ordinal]

/-- R77's byte columns after the opcode. -/
def encodeOperands : Instr → List Byte
  | .movLitReg v d => encodeWord v ++ encodeReg d
  | .movRegReg r d => encodeReg r ++ encodeReg d
  | .movRegMem r a => encodeReg r ++ encodeWord a
  | .movMemReg a d => encodeWord a ++ encodeReg d
  | .addRegReg p q => encodeReg p ++ encodeReg q
  | .jmpNotEq v t => encodeWord v ++ encodeWord t
  | .pshLit v => encodeWord v
  | .pshReg r => encodeReg r
  | .pop d => encodeReg d
  | .calLit t => encodeWord t
  | .calReg r => encodeReg r
  | .ret => []
  | .hlt => []

/-- The bytes of an instruction in address order (R85). -/
def encode (m : OpcodeMap) (i : Instr) : List Byte :=
  m.byte i.mnemonic :: encodeOperands i

/-- R77's length column. -/
def Mnemonic.length : Mnemonic → Nat
  | .movLitReg => 4 | .movRegReg => 3 | .movRegMem => 4 | .movMemReg => 4
  | .addRegReg => 3 | .jmpNotEq => 5
  | .pshLit => 3 | .pshReg => 2 | .pop => 2
  | .calLit => 3 | .calReg => 2 | .ret => 1 | .hlt => 1

/-! ### The opcode table's own numbering -/

/-- The bytes of a table word, byte `k` in its bits `8k+7..8k`, the first at the lowest address: as many as the longest
instruction has, every bit from `nbits` on zero. -/
def tableBytes (nbits w : Nat) : List Byte :=
  (List.range 5).map fun k => BitVec.ofNat 8 ((w % 2 ^ nbits) >>> (8 * k))

/-- The instruction the decoder reads from a word of spec/opcode_table.json, under the default parameters (log 1, log 2). -/
def decodeTableWord (nbits w : Nat) : Option Instr :=
  match decode OpcodeMap.default .fault (tableBytes nbits w) with
  | .ok (i, _) => some i
  | .error _ => none

end Sys2Proof
end

