-- ==== Sys2Proof/Machine/Defaults.lean ====
section
/-!
DEFINITION. The default values of the parameters of spec/00_scope.md R8, and what a byte of a memory device that nothing has
written or loaded reads as. Each is a default of a named parameter, not a fixed property of the hardware.
-/

namespace Sys2Proof

/-- What a byte that no cell lists reads as: "the default memory device is created zero-filled" (D25; "from general
knowledge, not in source"). PRESUMED, unsafe (log 4). -/
def unlistedByte : Byte := 0x00

/-- R68: a mapper with one region `[0x0000, 0xFFFF]`, remap set, over a plain memory of 65536 bytes. DESIGN CHOICE of the
spec (D26), unsafe for a platform mapped otherwise (log 4). -/
def Device.default : Device :=
  .mapper (.cons (.memory 0 65536) 0x0000 0xFFFF true .nil)

/-- The defaults of `OPCODE_BYTE`, `REG_ORDINAL_POLICY` and `ADDRESS_SPACE` (R8; log 1, log 2, log 4). -/
def Config.default : Config where
  opcodes := OpcodeMap.default
  ordinals := .fault
  addressSpace := Device.default

/-- The default `ENTRY_IP` (R8, R34, D10; log 3). -/
def Config.defaultEntry : Word := 0x0000

/-- The default of `IMAGE`: no bytes, the offset 0x0000 (R8, R162, D25), and the one memory of the default address space as
the primary memory device (R68, log 28). A program is `{ Image.default with bytes := … }`. -/
def Image.default : Image where
  bytes := []
  offset := 0x0000
  primary := 0

end Sys2Proof
end

