-- ==== Sys2Proof/Machine/State.lean ====
section
/-!
DEFINITION. What the machine holds: the engine's state `{ x, sfs, AS }` (head of spec/10_state.md), its configuration, and
the model's own record of how the last step ended. The reasons a step can stop. The state at construction, this hardware's
reset (spec/70_reset_and_hazards.md R160).
-/

namespace Sys2Proof.Machine

/-- What an access to AS was for (R141). -/
inductive Access where
  /-- the fetch of an opcode or ordinal byte (R73) -/
  | fetch8
  /-- the fetch of a 16-bit operand (R74) -/
  | fetch16
  /-- a data read: MOV_MEM_REG, pop -/
  | read16
  /-- a data write: MOV_REG_MEM, push -/
  | write16
deriving DecidableEq, Repr

/-- The hard errors of R141. A Fault carries no state (R144): safe, the model says nothing of the state it leaves. Code 0 of
that table, EndOfProgram, is no Fault: its outcome carries a state (R140), see `Status`. -/
inductive Fault where
  /-- Code 1, raised by the step that fetches a byte `b` at `a` that is neither 0x00 nor an opcode (R137). Safe: the spec's own. -/
  | unknownOpcode (b : Byte) (a : Word)
  /-- Code 2, raised by the fetch of an ordinal byte `b ≥ 12` at `a` under the policy `fault` (R75). Safe. -/
  | invalidRegister (b : Byte) (a : Word)
  /-- Code 3, raised by any access to AS that the device does not service: `a` is the address given to AS (R141). Safe. -/
  | addressRange (a : Word) (access : Access)
  /-- Code 4, "unreachable in a correct model" (R24, R141): no definition of this model raises it. Safe. -/
  | invariantViolation
deriving DecidableEq, Repr

/-- Why the model gives a step no meaning. -/
inductive Refusal where
  /-- An instruction with no meaning yet; no arm of `exec` answers so. Safe. -/
  | notModelled (mnemonic : String)
  /-- Raised by `step` in a configuration that fails its checks: "refused as ill-formed, and no run starts from it" (R50,
  R79). Safe. -/
  | illFormedConfig
  /-- Raised by `step` after Halt or EndOfProgram: what a further step does is unsaid (R166). Safe (log 6). -/
  | runEnded
deriving DecidableEq, Repr

/-- The contents of the memory devices, as cells (key, byte) in one canonical form: keys strictly rising, no cell that holds
what an unlisted key reads as. `cellKey` (Machine/Ops.lean) numbers the bytes of the devices. -/
abbrev Memory := List Host.Cell

/-- The state of the address-space device (R33): the contents of every memory device reachable through it, and the
operations its peripherals have serviced, newest first (R46, R62; log 8). -/
structure DeviceState where
  mem : Memory
  trace : List PeripheralEvent
deriving DecidableEq, Repr

/-- The register file `x` (R20): twelve unsigned 16-bit registers (R22 allows them as twelve values). -/
structure RegFile where
  ip : Word
  acc : Word
  r1 : Word
  r2 : Word
  r3 : Word
  r4 : Word
  r5 : Word
  r6 : Word
  r7 : Word
  r8 : Word
  sp : Word
  fp : Word
deriving DecidableEq, Repr

/-- How the last step ended, of the outcomes of R140 that carry a state. The engine has no halted flag (R35): this is the
model's rendering of the outcome that `step` returns, since the host's interface has one constructor for all three.
DESIGN CHOICE, safe (log 6). -/
inductive Status where
  /-- Continue, or no step taken yet -/
  | running
  /-- Halt (R135) -/
  | halted
  /-- EndOfProgram, the 0x00 byte fetched at `a` (R136) -/
  | endOfProgram (a : Word)
deriving DecidableEq, Repr

/-- The machine. -/
structure State where
  /-- the register file (R20) -/
  regs : RegFile
  /-- the hidden counter stack_frame_size (R30, R31) -/
  sfs : Word
  /-- the state of the address-space device (R33) -/
  space : DeviceState
  /-- the parameters, fixed for the run (R8, R51; log 5) -/
  cfg : Config
  /-- how the last step ended (R140; log 6) -/
  status : Status
deriving DecidableEq, Repr

/-- Construction of the engine over an address space (R34, R160, R161): SP = FP = 0xFFFE, IP = `ENTRY_IP`, the rest zero.
SP and FP are the source's values; the others are the spec's decision D10. DESIGN CHOICE, unsafe (log 3). -/
def State.construct (cfg : Config) (entry : Word) (space : DeviceState) : State where
  regs := { ip := entry, acc := 0, r1 := 0, r2 := 0, r3 := 0, r4 := 0, r5 := 0, r6 := 0, r7 := 0, r8 := 0,
            sp := 0xFFFE, fp := 0xFFFE }
  sfs := 0
  space := space
  cfg := cfg
  status := .running

/-- The machine right after construction with the default parameters, before the host loads an image (log 16). -/
def State.reset : State :=
  State.construct Config.default Config.defaultEntry { mem := [], trace := [] }

end Sys2Proof.Machine
end

