-- ==== Sys2Proof/Machine/Ops.lean ====
section
/-!
DEFINITION. The named operations of the machine: the register file (spec/10_state.md), the plain memory device, the
peripherals and the mapper (spec/20_memory.md), the primitives MemRead and MemWrite (spec/00_scope.md R11), and the stack and
frame primitives (spec/43_stack.md, spec/44_call.md). An operation that can raise an error answers in `Except Fault`: the
first error ends it and nothing after it is done (R11, R145). There is no trap entry and no return from one (R143, R147):
a raised error becomes the outcome of the step in `finish`, in one place.
-/

namespace Sys2Proof.Machine

/-! ### The register file (R20, R23) -/

/-- Read a register. -/
def RegFile.get (x : RegFile) : Reg → Word
  | .ip => x.ip | .acc => x.acc
  | .r1 => x.r1 | .r2 => x.r2 | .r3 => x.r3 | .r4 => x.r4
  | .r5 => x.r5 | .r6 => x.r6 | .r7 => x.r7 | .r8 => x.r8
  | .sp => x.sp | .fp => x.fp

/-- Write a register; no other changes (R23). -/
def RegFile.set (x : RegFile) (r : Reg) (v : Word) : RegFile :=
  match r with
  | .ip => { x with ip := v } | .acc => { x with acc := v }
  | .r1 => { x with r1 := v } | .r2 => { x with r2 := v } | .r3 => { x with r3 := v } | .r4 => { x with r4 := v }
  | .r5 => { x with r5 := v } | .r6 => { x with r6 := v } | .r7 => { x with r7 := v } | .r8 => { x with r8 := v }
  | .sp => { x with sp := v } | .fp => { x with fp := v }

/-- `x[r]` (R11). -/
def State.reg (s : State) (r : Reg) : Word := s.regs.get r

/-- `x[r] <- v` (R11). -/
def State.setReg (s : State) (r : Reg) (v : Word) : State := { s with regs := s.regs.set r v }

/-! ### The other fields of the state, one update each -/

/-- `sfs <- v` (R30). -/
def State.setSfs (s : State) (v : Word) : State := { s with sfs := v }

/-- The address space after a Device operation (R33). -/
def State.setSpace (s : State) (σ : DeviceState) : State := { s with space := σ }

/-- How the step ends (R140; log 6). -/
def State.setStatus (s : State) (st : Status) : State := { s with status := st }

/-! ### The contents of the memory devices -/

/-- The cell that holds byte `o` of the memory device `id`: each device has 65536 keys of its own (R41), so that in the
default address space a byte's key is its address (log 9). -/
def cellKey (id : Nat) (o : Nat) : Nat := id * 65536 + o

/-- The byte at a key. -/
def Memory.read (m : Memory) (k : Nat) : Byte :=
  match m.find? (fun c => c.1 == k) with
  | some c => c.2
  | none => unlistedByte

/-- The cells without the one at `k`. -/
def Memory.erase (m : Memory) (k : Nat) : Memory := m.filter (fun c => c.1 != k)

/-- Add a cell in its place by key. -/
def Memory.insert : Memory → Nat → Byte → Memory
  | [], k, b => [(k, b)]
  | c :: m, k, b => if k < c.1 then (k, b) :: c :: m else c :: Memory.insert m k b

/-- Write a byte; a byte equal to what an unlisted key reads as is not listed. -/
def Memory.write (m : Memory) (k : Nat) (b : Byte) : Memory :=
  if b = unlistedByte then m.erase k else (m.erase k).insert k b

/-- The canonical form: keys strictly rising, no listed byte equal to an unlisted one's. -/
abbrev Memory.wf (m : Memory) : Prop :=
  m.Pairwise (fun c d => c.1 < d.1) ∧ ∀ c ∈ m, c.2 ≠ unlistedByte

/-- The word at two neighbouring keys, high byte first (R42). -/
def Memory.readWord (m : Memory) (k : Nat) : Word := joinBytes (m.read k) (m.read (k + 1))

/-- Write a word at two neighbouring keys, high byte first (R42). -/
def Memory.writeWord (m : Memory) (k : Nat) (v : Word) : Memory := (m.write k (hi8 v)).write (k + 1) (lo8 v)

/-- Write bytes at neighbouring keys, the first one at `k`. -/
def Memory.writeBytes : Memory → Nat → List Byte → Memory
  | m, _, [] => m
  | m, k, b :: bs => Memory.writeBytes (m.write k b) (k + 1) bs

/-! ### Devices (R40 to R58) -/

/-- A device that answers an operation itself. -/
inductive Leaf where
  | memory (id size : Nat)
  | peripheral (id : Nat)
deriving DecidableEq, Repr

/-- R48, inclusive at both ends. -/
def inRegion (start last a : Word) : Bool := decide (start ≤ a) && decide (a ≤ last)

/-- R54. -/
def regionOffset (start : Word) (remap : Bool) (a : Word) : Word := if remap then a - start else a

/-- `read_u8` of a device that answers itself (R44, R46). -/
def Leaf.readU8 (l : Leaf) (o : Word) (σ : DeviceState) : Option (Byte × DeviceState) :=
  match l with
  | .memory id size => if o.toNat < size then some (σ.mem.read (cellKey id o.toNat), σ) else none
  | .peripheral id =>
    match Config.peripheralRead8 id σ.trace o with
    | some b => some (b, { σ with trace := ⟨id, o, .read8 b⟩ :: σ.trace })
    | none => none

/-- `read_u16` of a device that answers itself: on a memory `o + 1` is computed without wrap-around (R44). -/
def Leaf.readU16 (l : Leaf) (o : Word) (σ : DeviceState) : Option (Word × DeviceState) :=
  match l with
  | .memory id size => if o.toNat + 1 < size then some (σ.mem.readWord (cellKey id o.toNat), σ) else none
  | .peripheral id =>
    match Config.peripheralRead16 id σ.trace o with
    | some v => some (v, { σ with trace := ⟨id, o, .read16 v⟩ :: σ.trace })
    | none => none

/-- `write_u8` of a device that answers itself; no instruction issues it (R59). -/
def Leaf.writeU8 (l : Leaf) (o : Word) (v : Byte) (σ : DeviceState) : Option DeviceState :=
  match l with
  | .memory id size => if o.toNat < size then some { σ with mem := σ.mem.write (cellKey id o.toNat) v } else none
  | .peripheral id =>
    if Config.peripheralWrite8 id σ.trace o v then some { σ with trace := ⟨id, o, .write8 v⟩ :: σ.trace } else none

/-- `write_u16` of a device that answers itself (R44, R46). -/
def Leaf.writeU16 (l : Leaf) (o : Word) (v : Word) (σ : DeviceState) : Option DeviceState :=
  match l with
  | .memory id size => if o.toNat + 1 < size then some { σ with mem := σ.mem.writeWord (cellKey id o.toNat) v } else none
  | .peripheral id =>
    if Config.peripheralWrite16 id σ.trace o v then some { σ with trace := ⟨id, o, .write16 v⟩ :: σ.trace } else none

end Sys2Proof.Machine

namespace Sys2Proof
open Machine

mutual
/-- The device that answers an operation at `a`, and the offset it is given. It does not depend on the operation: "reads and
writes use the same lookup" (R52), and a 16-bit access is looked up by its first byte (R57). -/
def Device.resolve : Device → Word → Option (Leaf × Word)
  | .memory id size, a => some (.memory id size, a)
  | .peripheral id, a => some (.peripheral id, a)
  | .mapper rs, a => rs.resolve a
/-- R58: the first region that contains `a`, most recently mapped first; no region is a failure (R53). -/
def Regions.resolve : Regions → Word → Option (Leaf × Word)
  | .nil, _ => none
  | .cons d start last remap older, a =>
    if inRegion start last a then d.resolve (regionOffset start remap a) else older.resolve a
end

/-- `read_u8` of any device (R40): `none` is the failure None. -/
def Device.readU8 (d : Device) (a : Word) (σ : DeviceState) : Option (Byte × DeviceState) :=
  match d.resolve a with
  | some (l, o) => l.readU8 o σ
  | none => none

/-- `read_u16` of any device: one call to the device of the first byte (R57). -/
def Device.readU16 (d : Device) (a : Word) (σ : DeviceState) : Option (Word × DeviceState) :=
  match d.resolve a with
  | some (l, o) => l.readU16 o σ
  | none => none

/-- `write_u8` of any device: `none` is the failure Err. -/
def Device.writeU8 (d : Device) (a : Word) (v : Byte) (σ : DeviceState) : Option DeviceState :=
  match d.resolve a with
  | some (l, o) => l.writeU8 o v σ
  | none => none

/-- `write_u16` of any device. -/
def Device.writeU16 (d : Device) (a : Word) (v : Word) (σ : DeviceState) : Option DeviceState :=
  match d.resolve a with
  | some (l, o) => l.writeU16 o v σ
  | none => none

/-- The key of the memory byte behind an address; `none` if no memory device backs it. -/
def Device.byteCell (d : Device) (a : Word) : Option Nat :=
  match d.resolve a with
  | some (.memory id size, o) => if o.toNat < size then some (cellKey id o.toNat) else none
  | _ => none

/-- The key of the first byte of the memory word that a 16-bit access at an address reaches, the second byte at the next key
(R57); `none` if no memory device serves it. -/
def Device.wordCell (d : Device) (a : Word) : Option Nat :=
  match d.resolve a with
  | some (.memory id size, o) => if o.toNat + 1 < size then some (cellKey id o.toNat) else none
  | _ => none

end Sys2Proof

namespace Sys2Proof.Machine

/-! ### MemRead and MemWrite (R11) -/

/-- `MemRead(a, 1)`. -/
def memRead8 (access : Access) (a : Word) (s : State) : Except Fault (Byte × State) :=
  match s.cfg.addressSpace.readU8 a s.space with
  | some (b, σ) => .ok (b, s.setSpace σ)
  | none => .error (.addressRange a access)

/-- `MemRead(a, 2)`. -/
def memRead16 (access : Access) (a : Word) (s : State) : Except Fault (Word × State) :=
  match s.cfg.addressSpace.readU16 a s.space with
  | some (v, σ) => .ok (v, s.setSpace σ)
  | none => .error (.addressRange a access)

/-- `MemWrite(a, 2, v)`. -/
def memWrite16 (a v : Word) (s : State) : Except Fault State :=
  match s.cfg.addressSpace.writeU16 a v s.space with
  | some σ => .ok (s.setSpace σ)
  | none => .error (.addressRange a .write16)

/-! ### The stack (R110, R111) -/

/-- R110: write at SP, then lower SP by 2, then raise sfs by 2, all modulo 2^16. -/
def push (v : Word) (s : State) : Except Fault State := do
  let a := s.reg .sp
  let s ← memWrite16 a v s
  .ok ((s.setReg .sp (a - 2)).setSfs (s.sfs + 2))

/-- R111: raise SP by 2 and lower sfs by 2, then read at the new SP. -/
def pop (s : State) : Except Fault (Word × State) :=
  let a := s.reg .sp + 2
  memRead16 .read16 a ((s.setReg .sp a).setSfs (s.sfs - 2))

/-- Push the values of a list, the first one first. -/
def pushAll : List Word → State → Except Fault State
  | [], s => .ok s
  | v :: vs, s => do
    let s ← push v s
    pushAll vs s

/-- Pop into the registers of a list, the first one first. -/
def popInto : List Reg → State → Except Fault State
  | [], s => .ok s
  | r :: rs, s => do
    let (v, s) ← pop s
    popInto rs (s.setReg r v)

/-- `repeat n times: pop()` (R121): each reads its word and lowers sfs. -/
def popDiscard : Nat → State → Except Fault State
  | 0, s => .ok s
  | n + 1, s => do
    let (_, s) ← pop s
    popDiscard n s

/-! ### Frames (R120, R121) -/

/-- R120: push R1..R8, IP and `sfs + 2`, where sfs already counts the nine pushes; then FP ← SP and sfs ← 0. -/
def pushState (s : State) : Except Fault State := do
  let s ← pushAll [s.reg .r1, s.reg .r2, s.reg .r3, s.reg .r4, s.reg .r5, s.reg .r6, s.reg .r7, s.reg .r8, s.reg .ip] s
  let s ← push (s.sfs + 2) s
  .ok ((s.setReg .fp (s.reg .sp)).setSfs 0)

/-- R121: SP ← FP; pop the saved frame size into sfs; pop IP, R8..R1 and the argument count; discard that many words; then
FP ← the FP on entry plus the saved frame size (D8, D9; log 14). -/
def popState (s : State) : Except Fault State := do
  let fp0 := s.reg .fp
  let (saved, s) ← pop (s.setReg .sp fp0)
  let s ← popInto [.ip, .r8, .r7, .r6, .r5, .r4, .r3, .r2, .r1] (s.setSfs saved)
  let (n, s) ← pop s
  let s ← popDiscard n.toNat s
  .ok (s.setReg .fp (fp0 + saved))

/-! ### The end of an instruction -/

/-- The outcome of a step whose instruction ended so: Continue, or the raised error returned to the host (R140, R143). -/
def finish : Except Fault State → Host.Outcome State Fault Refusal
  | .ok s => .next s
  | .error f => .fault f

end Sys2Proof.Machine
end

