-- ==== Sys2Proof/Machine/Flags.lean ====
section
/-!
DEFINITION. The hardware has no flags (spec/10_state.md R28). Its one arithmetic operation and its one comparison stand here:
16-bit addition without carry out (spec/41_arith.md R101) and the equality test of JMP_NOT_EQ (spec/42_branch.md R105).
-/

namespace Sys2Proof.Machine

/-- R100, R101: the sum modulo 2^16; the carry out of bit 15 is recorded nowhere. -/
def add16 (a b : Word) : Word := a + b

/-- R105: taken when ACC is not equal to the literal, all 16 bits compared. -/
def branchTaken (acc v : Word) : Bool := acc != v

end Sys2Proof.Machine
end

