-- ==== Sys2Proof/Machine/Arith.lean ====
section
/-!
DEFINITION. The arithmetic instruction (spec/41_arith.md R100).
-/

namespace Sys2Proof.Machine

/-- ADD_REG_REG (R100): the result always goes to ACC. -/
def execAddRegReg (p q : Reg) (s : State) : Host.Outcome State Fault Refusal :=
  .next (s.setReg .acc (add16 (s.reg p) (s.reg q)))

end Sys2Proof.Machine
end

