-- ==== Sys2Proof/Machine/Branch.lean ====
section
/-!
DEFINITION. The branch (spec/42_branch.md R105). Targets are absolute and take effect at the next step's opcode fetch (R106).
-/

namespace Sys2Proof.Machine

/-- JMP_NOT_EQ (R105): not taken, IP stays past the instruction. -/
def execJmpNotEq (v t : Word) (s : State) : Host.Outcome State Fault Refusal :=
  .next (if branchTaken (s.reg .acc) v then s.setReg .ip t else s)

end Sys2Proof.Machine
end

