-- ==== Sys2Proof/Machine/Call.lean ====
section
/-!
DEFINITION. Subroutine call and return (spec/44_call.md R122 to R124). The saved IP is the address after the call.
-/

namespace Sys2Proof.Machine

/-- CAL_LIT (R122). -/
def execCalLit (t : Word) (s : State) : Host.Outcome State Fault Refusal :=
  finish do
    let s ← pushState s
    .ok (s.setReg .ip t)

/-- CAL_REG (R123): the register is read before the frame is pushed (D7; log 13). -/
def execCalReg (r : Reg) (s : State) : Host.Outcome State Fault Refusal :=
  let t := s.reg r
  finish do
    let s ← pushState s
    .ok (s.setReg .ip t)

/-- RET (R124). -/
def execRet (s : State) : Host.Outcome State Fault Refusal :=
  finish (popState s)

end Sys2Proof.Machine
end

