-- ==== Sys2Proof/Machine/Move.lean ====
section
/-!
DEFINITION. The data movement instructions (spec/40_move.md R90 to R93). Each runs with IP already past its operands.
-/

namespace Sys2Proof.Machine

/-- MOV_LIT_REG (R90). -/
def execMovLitReg (v : Word) (d : Reg) (s : State) : Host.Outcome State Fault Refusal :=
  .next (s.setReg d v)

/-- MOV_REG_REG (R91): first operand the source, second the destination (D6; log 12). -/
def execMovRegReg (r d : Reg) (s : State) : Host.Outcome State Fault Refusal :=
  .next (s.setReg d (s.reg r))

/-- MOV_REG_MEM (R92). -/
def execMovRegMem (r : Reg) (a : Word) (s : State) : Host.Outcome State Fault Refusal :=
  finish (memWrite16 a (s.reg r) s)

/-- MOV_MEM_REG (R93): the register is not written when the read fails. -/
def execMovMemReg (a : Word) (d : Reg) (s : State) : Host.Outcome State Fault Refusal :=
  finish do
    let (v, s) ← memRead16 .read16 a s
    .ok (s.setReg d v)

end Sys2Proof.Machine
end

