-- ==== Sys2Proof/Machine/Stack.lean ====
section
/-!
DEFINITION. The stack instructions (spec/43_stack.md R114 to R116).
-/

namespace Sys2Proof.Machine

/-- PSH_LIT (R114). -/
def execPshLit (v : Word) (s : State) : Host.Outcome State Fault Refusal :=
  finish (push v s)

/-- PSH_REG (R115): the register is read before the push changes SP. -/
def execPshReg (r : Reg) (s : State) : Host.Outcome State Fault Refusal :=
  finish (push (s.reg r) s)

/-- POP (R116): with SP as the destination the popped word overwrites the pop's own increment. -/
def execPop (d : Reg) (s : State) : Host.Outcome State Fault Refusal :=
  finish do
    let (v, s) ← pop s
    .ok (s.setReg d v)

end Sys2Proof.Machine
end

