-- ==== Sys2Proof/Machine/System.lean ====
section
/-!
DEFINITION. HLT, the end-of-program marker (spec/45_system.md R135, R136) and the codes of spec/60_exceptions.md R141.
-/

namespace Sys2Proof.Machine

/-- HLT (R135): the outcome Halt(s'); no register but IP, which the opcode fetch advanced, and no memory is written. Halt
carries a state, so it is a next state whose `status` says Halt (log 6). -/
def execHlt (s : State) : Host.Outcome State Fault Refusal :=
  .next (s.setStatus .halted)

/-- The outcome EndOfProgram(s', a) of a step that fetched 0x00 at `a` (R136, R144; log 6). -/
def endProgram (a : Word) (s : State) : Host.Outcome State Fault Refusal :=
  .next (s.setStatus (.endOfProgram a))

/-- R141's code of a Fault. -/
def Fault.code : Fault → Nat
  | .unknownOpcode _ _ => 1
  | .invalidRegister _ _ => 2
  | .addressRange _ _ => 3
  | .invariantViolation => 4

/-- R141's code of EndOfProgram. -/
def endOfProgramCode : Nat := 0

end Sys2Proof.Machine
end

