-- ==== Sys2Proof/Machine/Dispatch.lean ====
section
/-!
DEFINITION. Execute (spec/45_system.md R138): one arm per instruction, each a call of its meaning.
-/

namespace Sys2Proof.Machine

/-- Run an instruction whose operands have been fetched, IP past it. -/
def exec (i : Instr) (s : State) : Host.Outcome State Fault Refusal :=
  match i with
  | .movLitReg v d => Sys2Proof.Machine.execMovLitReg v d s
  | .movRegReg r d => Sys2Proof.Machine.execMovRegReg r d s
  | .movRegMem r a => Sys2Proof.Machine.execMovRegMem r a s
  | .movMemReg a d => Sys2Proof.Machine.execMovMemReg a d s
  | .addRegReg p q => Sys2Proof.Machine.execAddRegReg p q s
  | .jmpNotEq v t => Sys2Proof.Machine.execJmpNotEq v t s
  | .pshLit v => Sys2Proof.Machine.execPshLit v s
  | .pshReg r => Sys2Proof.Machine.execPshReg r s
  | .pop d => Sys2Proof.Machine.execPop d s
  | .calLit t => Sys2Proof.Machine.execCalLit t s
  | .calReg r => Sys2Proof.Machine.execCalReg r s
  | .ret => Sys2Proof.Machine.execRet s
  | .hlt => Sys2Proof.Machine.execHlt s

end Sys2Proof.Machine
end

