-- ==== Sys2Proof/Machine/Operands.lean ====
section
/-!
DEFINITION. The operand forms as the engine fetches them: fetch, fetch16 and fetch_reg (spec/30_encoding.md R73 to R75), and
the fetch and decode of a whole instruction at IP (R72, R77, R80; spec/45_system.md R138). Every operand is fetched before the
instruction reads or writes anything else (R72), so a fetched instruction is a term of `Instr` and a state whose IP is past
it (log 18).
-/

namespace Sys2Proof.Machine

/-- R73: a byte at IP; IP advances by 1 modulo 2^16. -/
def fetch8 (s : State) : Except Fault (Byte × State) := do
  let (b, s) ← memRead8 .fetch8 (s.reg .ip) s
  .ok (b, s.setReg .ip (s.reg .ip + 1))

/-- R74: a word at IP by a single `read_u16`; IP advances by 2 modulo 2^16. -/
def fetch16 (s : State) : Except Fault (Word × State) := do
  let (w, s) ← memRead16 .fetch16 (s.reg .ip) s
  .ok (w, s.setReg .ip (s.reg .ip + 2))

/-- R75: a byte at IP, read as a register ordinal; the error names the byte and its address. -/
def fetchReg (s : State) : Except Fault (Reg × State) := do
  let a := s.reg .ip
  let (b, s) ← fetch8 s
  match regOfByte s.cfg.ordinals b with
  | some r => .ok (r, s)
  | none => .error (.invalidRegister b a)

/-- What a fetch at IP found. -/
inductive Fetched where
  | instr (i : Instr)
  /-- the 0x00 marker, at this address (R136) -/
  | endOfProgram (a : Word)
deriving DecidableEq, Repr

/-- Fetch and decode at IP: the opcode byte, then the operands in order (R138, R80). -/
def fetchInstr (s : State) : Except Fault (Fetched × State) := do
  let a := s.reg .ip
  let (b, s) ← fetch8 s
  match decodeOpcode s.cfg.opcodes b with
  | .instr k =>
    let x ← decodeOperands fetch16 fetchReg k s
    .ok (.instr x.1, x.2)
  | .endOfProgram => .ok (.endOfProgram a, s)
  | .unknown => .error (.unknownOpcode b a)

end Sys2Proof.Machine
end

