-- ==== Sys2Proof/Machine/HostInterface.lean ====
section
/-!
DEFINITION. What the host does to the engine before and between steps (spec/60_exceptions.md R151, R153;
spec/70_reset_and_hazards.md R162): map regions, load an image, and the read-only views. No step calls any of these.
-/

namespace Sys2Proof.Machine

/-- R50: `map(device, start, end, remap)` on a mapper's regions. It fails if `start >= end`; the new region stands ahead of
all earlier ones. -/
def mapRegion (device : Device) (start last : Word) (remap : Bool) (mapped : Regions) : Option Regions :=
  if last ≤ start then none else some (.cons device start last remap mapped)

end Sys2Proof.Machine

namespace Sys2Proof

/-- The size of the memory device `id` of a tree (R44), 0 where the tree has none. -/
def Device.memorySize (d : Device) (id : Nat) : Nat :=
  match d.memories.find? (fun p => p.1 == id) with
  | some p => p.2
  | none => 0

/-- Whether every byte of an image lies inside its primary memory device. An image of no bytes always does. -/
def Image.fits (img : Image) (d : Device) : Bool :=
  img.bytes.isEmpty || decide (img.offset.toNat + img.bytes.length ≤ d.memorySize img.primary)

end Sys2Proof

namespace Sys2Proof.Machine

/-- R162: write the image's bytes into the primary memory device from its offset on. What the host does with an image that
does not fit that device, or whose primary device is not in the tree, the spec does not say: the model loads no part of
it and answers none. DESIGN CHOICE, safe (log 27). -/
def loadImage (d : Device) (img : Image) (m : Memory) : Option Memory :=
  if img.fits d then some (m.writeBytes (cellKey img.primary img.offset.toNat) img.bytes) else none

/-- Boot with every parameter given (R8, R162): the configuration, `ENTRY_IP` and `IMAGE`, over memories created with the
contents `initial`. No engine is constructed over an image that cannot be loaded (log 27). -/
def State.boot (cfg : Config) (entry : Word) (img : Image) (initial : Memory) : Option State :=
  (loadImage cfg.addressSpace img initial).map fun m => State.construct cfg entry { mem := m, trace := [] }

/-- R151: the register dump. -/
def State.registerDump (s : State) : List (Reg × Word) :=
  [Reg.ip, .acc, .r1, .r2, .r3, .r4, .r5, .r6, .r7, .r8, .sp, .fp].map fun r => (r, s.reg r)

/-- R22: the register file as its 24-byte buffer, register `k` at bytes `2k` and `2k + 1`, high byte first (log 26). -/
def RegFile.buffer (x : RegFile) : List Byte :=
  [Reg.ip, .acc, .r1, .r2, .r3, .r4, .r5, .r6, .r7, .r8, .sp, .fp].flatMap fun r => [hi8 (x.get r), lo8 (x.get r)]

/-- R151: the memory viewer. It calls no peripheral's read, so it shows memory bytes only. DESIGN CHOICE, safe (log 21). -/
def State.byteAt (s : State) (a : Word) : Option Byte :=
  (s.cfg.addressSpace.byteCell a).map s.space.mem.read

/-- The word a 16-bit access at `a` reaches, where a memory device serves it. -/
def State.wordAt (s : State) (a : Word) : Option Word :=
  (s.cfg.addressSpace.wordCell a).map s.space.mem.readWord

/-- Put bytes at consecutive addresses from `a` on, modulo 2^16, each into the memory byte behind its address; an address no
memory backs is left alone. -/
def placeBytes (d : Device) : Word → List Byte → Memory → Memory
  | _, [], m => m
  | a, b :: bs, m =>
    placeBytes d (a + 1) bs
      (match d.byteCell a with
       | some k => m.write k b
       | none => m)

/-- A state set up to fetch these bytes at IP as its next instruction under the default opcode map (log 17). -/
def State.placeCode (s : State) (code : List Byte) : State :=
  { s with
    space := { s.space with mem := placeBytes s.cfg.addressSpace (s.reg .ip) code s.space.mem }
    cfg := { s.cfg with opcodes := OpcodeMap.default }
    status := .running }

end Sys2Proof.Machine
end

