-- ==== Sys2Proof/Machine/Step.lean ====
section
/-!
DEFINITION. The step (spec/45_system.md R138): one fetch, decode and execute cycle.
-/

namespace Sys2Proof.Machine

/-- Execute what the fetch at IP found, or end the step with the error it raised (R138). -/
def execute : Except Fault (Fetched × State) → Host.Outcome State Fault Refusal
  | .ok (.instr i, s) => exec i s
  | .ok (.endOfProgram a, s) => endProgram a s
  | .error f => .fault f

/-- R138. An ill-formed configuration is refused (R50, R79), and so is a step after the run has ended (R166). Otherwise
the step fetches and decodes at IP, and runs what it found. -/
def step (s : State) : Host.Outcome State Fault Refusal :=
  if s.cfg.wf then
    match s.status with
    | .running => execute (fetchInstr s)
    | .halted => .refused .runEnded
    | .endOfProgram _ => .refused .runEnded
  else .refused .illFormedConfig

/-- `s` with the instruction of a table word stored at IP, where the next step fetches (log 17). -/
def State.withFetchWord (s : State) (nbits w : Nat) : State :=
  s.placeCode (tableBytes nbits w)

end Sys2Proof.Machine
end

