-- ==== Sys2Proof/Safety.lean ====
section
/-!
DEFINITION. The terms that claims use: outcomes and runs in the spec's own words (spec/60_exceptions.md R140,
spec/45_system.md R139, spec/70_reset_and_hazards.md R166), the invariant of the machine, what an instruction may change
(spec/10_state.md R25), and how a step fetches, said by the Device operations alone (spec/30_encoding.md R72 to R75).
-/

namespace Sys2Proof.Machine

/-- R140's outcome of a step. -/
inductive StepOutcome where
  | continues (s : State)
  | halts (s : State)
  | endsProgram (s : State) (a : Word)
  | faults (f : Fault)
deriving DecidableEq, Repr

/-- The spec's outcome of an outcome of the interface; a refusal is none of them. -/
def StepOutcome.of? : Host.Outcome State Fault Refusal → Option StepOutcome
  | .next s =>
    match s.status with
    | .running => some (.continues s)
    | .halted => some (.halts s)
    | .endOfProgram a => some (.endsProgram s a)
  | .fault f => some (.faults f)
  | .refused _ => none

/-- Go on with `run` after Continue; any other outcome of a step ends the run with it. -/
def goOn (run : State → Host.Outcome State Fault Refusal) :
    Host.Outcome State Fault Refusal → Host.Outcome State Fault Refusal
  | .next t => if t.status = .running then run t else .next t
  | .fault f => .fault f
  | .refused r => .refused r

/-- R139, with a bound: at most `fuel` steps from `s`, up to the first outcome other than Continue. -/
def runFor : Nat → State → Host.Outcome State Fault Refusal
  | 0 => .next
  | fuel + 1 => fun s => goOn (runFor fuel) (step s)

/-- A run from `s` ends in Halt with the state `t`: "the only successful end" (R166). -/
def HaltsIn (fuel : Nat) (s t : State) : Prop := runFor fuel s = .next t ∧ t.status = .halted

/-- A run from `s` ends in a Fault (R166). -/
def FaultsIn (fuel : Nat) (s : State) (f : Fault) : Prop := runFor fuel s = .fault f

/-- R139: a run that never ends, a hang. -/
def Hangs (s : State) : Prop := ∀ fuel, ∃ t, runFor fuel s = .next t ∧ t.status = .running

/-! ### The invariant -/

/-- Some memory device of the tree has the byte at a key (R44). -/
def backs (d : Device) (k : Nat) : Bool :=
  d.memories.any fun p => decide (cellKey p.1 0 ≤ k) && decide (k < cellKey p.1 p.2)

/-- The configuration passes its checks (R50, R79), the contents of the memories are in canonical form, and every listed
byte belongs to a memory device of the address space, inside its size (R44). -/
abbrev Inv (s : State) : Prop :=
  s.cfg.wf = true ∧ s.space.mem.wf ∧ ∀ c ∈ s.space.mem, backs s.cfg.addressSpace c.1 = true

mutual
/-- No peripheral stands anywhere in the device tree. -/
def memoryOnly : Device → Bool
  | .memory _ _ => true
  | .peripheral _ => false
  | .mapper rs => memoryOnlyRegions rs
/-- No region of the list leads to a peripheral. -/
def memoryOnlyRegions : Regions → Bool
  | .nil => true
  | .cons d _ _ _ older => memoryOnly d && memoryOnlyRegions older
end

/-- A region as the tuple of R48. -/
structure Region where
  device : Device
  start : Word
  last : Word
  remap : Bool
deriving DecidableEq, Repr

/-- A mapper's regions as a list, most recently mapped first (R49). -/
def regionList : Regions → List Region
  | .nil => []
  | .cons d start last remap older => ⟨d, start, last, remap⟩ :: regionList older

/-! ### What an instruction may change -/

/-- Every register outside the list holds what it held. -/
def RegsKept (s t : State) (except : List Reg) : Prop := ∀ r, r ∉ except → t.reg r = s.reg r

/-- Every byte of every memory device outside the listed keys reads as it read. -/
def BytesKept (s t : State) (except : List Nat) : Prop :=
  ∀ k, k ∉ except → t.space.mem.read k = s.space.mem.read k

/-- The registers an instruction writes beside the fetch's advance of IP (R25, "written by"). -/
def writtenRegs : Instr → List Reg
  | .movLitReg _ d => [d]
  | .movRegReg _ d => [d]
  | .movRegMem _ _ => []
  | .movMemReg _ d => [d]
  | .addRegReg _ _ => [.acc]
  | .jmpNotEq _ _ => [.ip]
  | .pshLit _ => [.sp]
  | .pshReg _ => [.sp]
  | .pop d => [.sp, d]
  | .calLit _ => [.sp, .fp, .ip]
  | .calReg _ => [.sp, .fp, .ip]
  | .ret => [.sp, .ip, .r8, .r7, .r6, .r5, .r4, .r3, .r2, .r1, .fp]
  | .hlt => []

/-- The instructions that touch sfs (R30): those that push, pop, call or return. -/
def touchesSfs : Instr → Bool
  | .pshLit _ => true
  | .pshReg _ => true
  | .pop _ => true
  | .calLit _ => true
  | .calReg _ => true
  | .ret => true
  | .movLitReg _ _ => false
  | .movRegReg _ _ => false
  | .movRegMem _ _ => false
  | .movMemReg _ _ => false
  | .addRegReg _ _ => false
  | .jmpNotEq _ _ => false
  | .hlt => false

/-- The address of the word that push number `j` of a frame writes, `j` from 0 (R120). -/
def pushAddr (s : State) (j : Nat) : Word := s.reg .sp - BitVec.ofNat 16 (2 * j)

/-- The address of the word that pop number `j` of a return reads, `j` from 0 (R121). -/
def popAddr (s : State) (j : Nat) : Word := s.reg .fp + 2 + BitVec.ofNat 16 (2 * j)

/-- The word that push number `j` of a frame writes (R120): R1..R8, the return address, and sfs plus 20. -/
def frameWord (s : State) : Nat → Word
  | 0 => s.reg .r1 | 1 => s.reg .r2 | 2 => s.reg .r3 | 3 => s.reg .r4
  | 4 => s.reg .r5 | 5 => s.reg .r6 | 6 => s.reg .r7 | 7 => s.reg .r8
  | 8 => s.reg .ip
  | _ => s.sfs + 20

/-- The addresses an instruction stores a word to, as its meaning computes them. -/
def storeAddresses (s : State) : Instr → List Word
  | .movRegMem _ a => [a]
  | .pshLit _ => [s.reg .sp]
  | .pshReg _ => [s.reg .sp]
  | .calLit _ => (List.range 10).map (pushAddr s)
  | .calReg _ => (List.range 10).map (pushAddr s)
  | .movLitReg _ _ => []
  | .movRegReg _ _ => []
  | .movMemReg _ _ => []
  | .addRegReg _ _ => []
  | .jmpNotEq _ _ => []
  | .pop _ => []
  | .ret => []
  | .hlt => []

/-- The keys of the memory bytes behind a word stored to an address; none where no memory device serves the access. -/
def wordKeys (d : Device) (a : Word) : List Nat :=
  match d.wordCell a with
  | some k => [k, k + 1]
  | none => []

/-- The keys of the memory bytes an instruction stores to. -/
def storedKeys (s : State) (i : Instr) : List Nat :=
  (storeAddresses s i).flatMap (wordKeys s.cfg.addressSpace)

/-- The frame balance `E = FP − SP − sfs` (R129). -/
def balance (s : State) : Word := s.reg .fp - s.reg .sp - s.sfs

/-! ### Sequences of accesses -/

/-- The device services `n` word writes in order: value `v j` to address `a j`, from state `σ j` to state `σ (j + 1)`. -/
def ServicedWrites (d : Device) (n : Nat) (a v : Nat → Word) (σ : Nat → DeviceState) : Prop :=
  ∀ j, j < n → d.writeU16 (a j) (v j) (σ j) = some (σ (j + 1))

/-- The device services `n` word reads in order: address `a j` answers `v j`, from state `σ j` to state `σ (j + 1)`. -/
def ServicedReads (d : Device) (n : Nat) (a v : Nat → Word) (σ : Nat → DeviceState) : Prop :=
  ∀ j, j < n → d.readU16 (a j) (σ j) = some (v j, σ (j + 1))

/-! ### The Device operations a step issues (R59, R62) -/

/-- A Device operation as the engine issues it on AS; it never issues a `write_u8` (R59). -/
inductive DeviceOp where
  | read8 (a : Word)
  | read16 (a : Word)
  | write16 (a v : Word)
deriving DecidableEq, Repr

/-- The address an operation gives to AS. -/
def DeviceOp.address : DeviceOp → Word
  | .read8 a => a
  | .read16 a => a
  | .write16 a _ => a

/-- Perform an operation: the state it leaves, none where it fails. -/
def DeviceOp.perform (d : Device) : DeviceOp → DeviceState → Option DeviceState
  | .read8 a, σ => (d.readU8 a σ).map Prod.snd
  | .read16 a, σ => (d.readU16 a σ).map Prod.snd
  | .write16 a v, σ => d.writeU16 a v σ

/-- Perform operations one after another, each before the next (R62). -/
def performAll (d : Device) : List DeviceOp → DeviceState → Option DeviceState
  | [], σ => some σ
  | op :: ops, σ => (op.perform d σ).bind (performAll d ops)

/-- The event an operation leaves in the record: where a peripheral serviced it, its identity, the offset it was given, and
the answer it gave or the value it took (log 8). -/
def DeviceOp.Recorded (d : Device) (op : DeviceOp) (e : PeripheralEvent) : Prop :=
  d.resolve op.address = some (.peripheral e.device, e.offset) ∧
  match op with
  | .read8 _ => ∃ b, e.op = .read8 b
  | .read16 _ => ∃ v, e.op = .read16 v
  | .write16 _ v => e.op = .write16 v

/-- Whether an operation goes to a peripheral. -/
def DeviceOp.toPeripheral (d : Device) (op : DeviceOp) : Bool :=
  match d.resolve op.address with
  | some (.peripheral _, _) => true
  | _ => false

/-- The operations that fetch an instruction at `A`: the opcode byte, then the operands in order (R72 to R75, R77). -/
def fetchOps (A : Word) : Mnemonic → List DeviceOp
  | .movLitReg => [.read8 A, .read16 (A + 1), .read8 (A + 3)]
  | .movRegReg => [.read8 A, .read8 (A + 1), .read8 (A + 2)]
  | .movRegMem => [.read8 A, .read8 (A + 1), .read16 (A + 2)]
  | .movMemReg => [.read8 A, .read16 (A + 1), .read8 (A + 3)]
  | .addRegReg => [.read8 A, .read8 (A + 1), .read8 (A + 2)]
  | .jmpNotEq => [.read8 A, .read16 (A + 1), .read16 (A + 3)]
  | .pshLit => [.read8 A, .read16 (A + 1)]
  | .pshReg => [.read8 A, .read8 (A + 1)]
  | .pop => [.read8 A, .read8 (A + 1)]
  | .calLit => [.read8 A, .read16 (A + 1)]
  | .calReg => [.read8 A, .read8 (A + 1)]
  | .ret => [.read8 A]
  | .hlt => [.read8 A]

/-- The pops of a return up to the argument count: the count is the last of them (R121). -/
def returnPops (s : State) (n : Nat) : List DeviceOp := (List.range n).map fun j => .read16 (popAddr s j)

/-- The argument count a return from `s` pops (R121), 0 where it gets no such word. -/
def argumentCount (s : State) : Nat :=
  match (performAll s.cfg.addressSpace (returnPops s 10) s.space).bind (s.cfg.addressSpace.readU16 (popAddr s 10)) with
  | some (n, _) => n.toNat
  | none => 0

/-- The operations an instruction issues when it executes in `s`, in order (R59, R92, R93, R110, R111, R120, R121). -/
def dataOps (s : State) : Instr → List DeviceOp
  | .movRegMem r a => [.write16 a (s.reg r)]
  | .movMemReg a _ => [.read16 a]
  | .pshLit v => [.write16 (s.reg .sp) v]
  | .pshReg r => [.write16 (s.reg .sp) (s.reg r)]
  | .pop _ => [.read16 (s.reg .sp + 2)]
  | .calLit _ => (List.range 10).map fun j => .write16 (pushAddr s j) (frameWord s j)
  | .calReg _ => (List.range 10).map fun j => .write16 (pushAddr s j) (frameWord s j)
  | .ret => returnPops s (11 + argumentCount s)
  | .movLitReg _ _ => []
  | .movRegReg _ _ => []
  | .addRegReg _ _ => []
  | .jmpNotEq _ _ => []
  | .hlt => []

/-! ### How a step fetches, by the Device operations (R72 to R75, R138) -/

/-- `s` with the address space in the state `σ` and IP at `a`: the state in which a fetched instruction executes. -/
def State.fetchedTo (s : State) (a : Word) (σ : DeviceState) : State := (s.setSpace σ).setReg .ip a

/-- `ops` are the operations of a step from `s` to `t`. Either the byte at IP is 0x00, the fetch finds the end-of-program
marker, and `t` is the state after that one fetch; or the byte at IP is the opcode of the instruction that the fetch finds,
`t` is what that instruction leaves, and `ops` are the operations of its fetch followed by its own, issued in the state the
fetch leaves (R136, R138). -/
def StepIssues (s t : State) (ops : List DeviceOp) : Prop :=
  let A := s.reg .ip
  (∃ σ, let u := s.fetchedTo (A + 1) σ
    s.cfg.addressSpace.readU8 A s.space = some (0x00, σ) ∧ fetchInstr s = .ok (.endOfProgram A, u) ∧
    t = u.setStatus (.endOfProgram A) ∧ ops = [.read8 A]) ∨
  ∃ i σ, let u := s.fetchedTo (A + BitVec.ofNat 16 i.mnemonic.length) σ
    (∃ τ, s.cfg.addressSpace.readU8 A s.space = some (s.cfg.opcodes.byte i.mnemonic, τ)) ∧
    fetchInstr s = .ok (.instr i, u) ∧ performAll s.cfg.addressSpace (fetchOps A i.mnemonic) s.space = some σ ∧
    exec i u = .next t ∧ ops = fetchOps A i.mnemonic ++ dataOps u i

/-- A step from `s` may begin, IP is `a`, and the opcode fetch reads the byte `b` there and leaves the address space in `σ`. -/
abbrev AtByte (s : State) (b : Byte) (a : Word) (σ : DeviceState) : Prop :=
  s.cfg.wf = true ∧ s.status = .running ∧ s.reg .ip = a ∧ s.cfg.addressSpace.readU8 a s.space = some (b, σ)

/-- The opcode fetch of the step reads the opcode byte of `k`. -/
abbrev AtOpcode (s : State) (k : Mnemonic) (a : Word) (σ : DeviceState) : Prop :=
  AtByte s (s.cfg.opcodes.byte k) a σ

/-- The step fetches a 16-bit operand at `a` (R74): it faults if the word cannot be read, and otherwise `P` holds of the
word and the state the read leaves. -/
def WordOperand (s : State) (a : Word) (σ : DeviceState) (P : Word → DeviceState → Prop) : Prop :=
  (s.cfg.addressSpace.readU16 a σ = none → step s = .fault (.addressRange a .fetch16)) ∧
  ∀ v σ', s.cfg.addressSpace.readU16 a σ = some (v, σ') → P v σ'

/-- The register an ordinal byte names (R75, R76): under `fault` the one of that ordinal, under `mask` the one of the
ordinal modulo 12. -/
abbrev Names (policy : OrdinalPolicy) (b : Byte) (r : Reg) : Prop :=
  (policy = .fault ∧ r.ordinal = b.toNat) ∨ (policy = .mask ∧ r.ordinal = b.toNat % 12)

/-- The step fetches a register operand at `a` (R75): it faults if the byte cannot be read, or if it is 12 or more under the
policy `fault`, and otherwise `P` holds of the register it names. -/
def RegOperand (s : State) (a : Word) (σ : DeviceState) (P : Reg → DeviceState → Prop) : Prop :=
  (s.cfg.addressSpace.readU8 a σ = none → step s = .fault (.addressRange a .fetch8)) ∧
  ∀ b σ', s.cfg.addressSpace.readU8 a σ = some (b, σ') →
    (s.cfg.ordinals = .fault → 12 ≤ b.toNat → step s = .fault (.invalidRegister b a)) ∧
    ∀ r, Names s.cfg.ordinals b r → P r σ'

/-- The offsets of an instruction's one-byte fields: the opcode and the register operands (R77). -/
def byteFields : Mnemonic → List Nat
  | .movLitReg => [0, 3] | .movRegReg => [0, 1, 2] | .movRegMem => [0, 1] | .movMemReg => [0, 3]
  | .addRegReg => [0, 1, 2] | .jmpNotEq => [0]
  | .pshLit => [0] | .pshReg => [0, 1] | .pop => [0, 1]
  | .calLit => [0] | .calReg => [0, 1] | .ret => [0] | .hlt => [0]

/-- The offsets of an instruction's 16-bit fields (R77). -/
def wordFields : Mnemonic → List Nat
  | .movLitReg => [1] | .movRegReg => [] | .movRegMem => [2] | .movMemReg => [1]
  | .addRegReg => [] | .jmpNotEq => [1, 3]
  | .pshLit => [1] | .pshReg => [] | .pop => []
  | .calLit => [1] | .calReg => [] | .ret => [] | .hlt => []

/-- The byte at offset `j` of a byte string, 0 past its end. -/
def byteOf (code : List Byte) (j : Nat) : Byte := code.getD j 0

/-- Memory devices hold this code at `a` where an instruction `k` is fetched from: each one-byte field by the byte at its
address, each 16-bit field by the word a single `read_u16` at its address reaches (R73 to R75, R78). -/
abbrev CodeAt (s : State) (k : Mnemonic) (a : Word) (code : List Byte) : Prop :=
  (∀ j ∈ byteFields k, s.byteAt (a + BitVec.ofNat 16 j) = some (byteOf code j)) ∧
  ∀ j ∈ wordFields k, s.wordAt (a + BitVec.ofNat 16 j) = some (joinBytes (byteOf code j) (byteOf code (j + 1)))

end Sys2Proof.Machine
end

