-- ==== Sys2Proof/Certificates/Slice0/Obligations.lean ====
section
/-!
DEFINITION. The statements for the provers. An operand fetch that reads a peripheral may leave the address space changed, so
the statements about a step carry the state `σ` of the address space from each access to the next. "The model's choice"
marks what rests on a log entry or on a decision of the spec (D<n>) and not on a sentence of the source. Throughout, the
addresses and counts the engine computes are modulo 2^16: the spec's decision D3 (log 10).
-/

open Sys2Proof Sys2Proof.Machine

/-! ### Data movement (spec/40_move.md) -/

/-- R90. MOV_LIT_REG writes the literal to the destination register, and nothing else; its step fetches the literal at A+1
and the ordinal at A+3. -/
def Obligations.MovLitRegLoadsLiteral : Prop :=
  (∀ (v : Word) (d : Reg) (s : State), ∃ t, exec (.movLitReg v d) s = .next t ∧
    t.reg d = v ∧ RegsKept s t [d] ∧ t.sfs = s.sfs ∧ t.space = s.space ∧ t.cfg = s.cfg ∧ t.status = s.status) ∧
  ∀ (s : State) (A : Word) (σ : DeviceState), AtOpcode s .movLitReg A σ →
    WordOperand s (A + 1) σ fun v σ => RegOperand s (A + 3) σ fun d σ =>
      step s = exec (.movLitReg v d) (s.fetchedTo (A + 4) σ)

/-- R91. MOV_REG_REG copies the register its first byte names to the one its second byte names, read after both fetches.
The operand order is the spec's decision D6 (log 12). -/
def Obligations.MovRegRegCopiesSource : Prop :=
  (∀ (r d : Reg) (s : State), ∃ t, exec (.movRegReg r d) s = .next t ∧
    t.reg d = s.reg r ∧ RegsKept s t [d] ∧ t.sfs = s.sfs ∧ t.space = s.space ∧ t.cfg = s.cfg ∧ t.status = s.status) ∧
  ∀ (s : State) (A : Word) (σ : DeviceState), AtOpcode s .movRegReg A σ →
    RegOperand s (A + 1) σ fun r σ => RegOperand s (A + 2) σ fun d σ =>
      step s = exec (.movRegReg r d) (s.fetchedTo (A + 3) σ)

/-- R92. MOV_REG_MEM stores the register by one write_u16 at the address; where a memory device serves it, the high byte goes
to the first byte and the low byte to the next, and every other byte of every memory is unchanged. -/
def Obligations.MovRegMemStoresWord : Prop :=
  (∀ (r : Reg) (a : Word) (s : State),
    (s.cfg.addressSpace.writeU16 a (s.reg r) s.space = none → exec (.movRegMem r a) s = .fault (.addressRange a .write16)) ∧
    ∀ σ, s.cfg.addressSpace.writeU16 a (s.reg r) s.space = some σ →
      ∃ t, exec (.movRegMem r a) s = .next t ∧
        RegsKept s t [] ∧ t.sfs = s.sfs ∧ t.space = σ ∧ t.cfg = s.cfg ∧ t.status = s.status) ∧
  (∀ (r : Reg) (a : Word) (s : State) (k : Nat), s.cfg.addressSpace.wordCell a = some k →
    ∃ t, exec (.movRegMem r a) s = .next t ∧
      t.space.mem.read k = hi8 (s.reg r) ∧ t.space.mem.read (k + 1) = lo8 (s.reg r) ∧ BytesKept s t [k, k + 1] ∧
      t.space.trace = s.space.trace) ∧
  ∀ (s : State) (A : Word) (σ : DeviceState), AtOpcode s .movRegMem A σ →
    RegOperand s (A + 1) σ fun r σ => WordOperand s (A + 2) σ fun a σ =>
      step s = exec (.movRegMem r a) (s.fetchedTo (A + 4) σ)

/-- R93. MOV_MEM_REG loads the register by one read_u16 at the address; where a memory device serves it, the word is the byte
there followed by the next one. A failed read is the fault, and no register is written. -/
def Obligations.MovMemRegLoadsWord : Prop :=
  (∀ (a : Word) (d : Reg) (s : State),
    (s.cfg.addressSpace.readU16 a s.space = none → exec (.movMemReg a d) s = .fault (.addressRange a .read16)) ∧
    ∀ v σ, s.cfg.addressSpace.readU16 a s.space = some (v, σ) →
      ∃ t, exec (.movMemReg a d) s = .next t ∧
        t.reg d = v ∧ RegsKept s t [d] ∧ t.sfs = s.sfs ∧ t.space = σ ∧ t.cfg = s.cfg ∧ t.status = s.status) ∧
  (∀ (a : Word) (d : Reg) (s : State) (k : Nat), s.cfg.addressSpace.wordCell a = some k →
    ∃ t, exec (.movMemReg a d) s = .next t ∧
      t.reg d = joinBytes (s.space.mem.read k) (s.space.mem.read (k + 1)) ∧ t.space = s.space) ∧
  ∀ (s : State) (A : Word) (σ : DeviceState), AtOpcode s .movMemReg A σ →
    WordOperand s (A + 1) σ fun a σ => RegOperand s (A + 3) σ fun d σ =>
      step s = exec (.movMemReg a d) (s.fetchedTo (A + 4) σ)

/-! ### Arithmetic (spec/41_arith.md) -/

/-- R100. ADD_REG_REG leaves in ACC the sum of the two registers modulo 2^16, in either order, and changes nothing else. The
wrap is the spec's decision D2 (log 10). -/
def Obligations.AddRegRegSumsIntoAcc : Prop :=
  (∀ (p q : Reg) (s : State), ∃ t, exec (.addRegReg p q) s = .next t ∧
    (t.reg .acc).toNat = ((s.reg p).toNat + (s.reg q).toNat) % 65536 ∧
    exec (.addRegReg q p) s = .next t ∧
    RegsKept s t [.acc] ∧ t.sfs = s.sfs ∧ t.space = s.space ∧ t.cfg = s.cfg ∧ t.status = s.status) ∧
  ∀ (s : State) (A : Word) (σ : DeviceState), AtOpcode s .addRegReg A σ →
    RegOperand s (A + 1) σ fun p σ => RegOperand s (A + 2) σ fun q σ =>
      step s = exec (.addRegReg p q) (s.fetchedTo (A + 3) σ)

/-! ### Branch (spec/42_branch.md) -/

/-- R105. JMP_NOT_EQ sets IP to the target when ACC differs from the literal, and otherwise leaves IP past the instruction. -/
def Obligations.JmpNotEqBranches : Prop :=
  (∀ (v a : Word) (s : State), ∃ t, exec (.jmpNotEq v a) s = .next t ∧
    (s.reg .acc ≠ v → t.reg .ip = a) ∧ (s.reg .acc = v → t.reg .ip = s.reg .ip) ∧
    RegsKept s t [.ip] ∧ t.sfs = s.sfs ∧ t.space = s.space ∧ t.cfg = s.cfg ∧ t.status = s.status) ∧
  ∀ (s : State) (A : Word) (σ : DeviceState), AtOpcode s .jmpNotEq A σ →
    WordOperand s (A + 1) σ fun v σ => WordOperand s (A + 3) σ fun a σ =>
      step s = exec (.jmpNotEq v a) (s.fetchedTo (A + 5) σ)

/-- R105, R139: a JMP_NOT_EQ to its own address, held in memory devices, with ACC different from the literal, is a run that
never ends. -/
def Obligations.JmpNotEqToItselfHangs : Prop :=
  ∀ (s : State) (v : Word), s.cfg.wf = true → s.status = .running → s.reg .acc ≠ v →
    CodeAt s .jmpNotEq (s.reg .ip) (encode s.cfg.opcodes (.jmpNotEq v (s.reg .ip))) → step s = .next s ∧ Hangs s

/-! ### Stack (spec/43_stack.md) -/

/-- R110. push writes at SP, lowers SP by 2 and raises sfs by 2, modulo 2^16; a failed write is the error and changes
nothing. -/
def Obligations.PushWritesThenLowersSP : Prop :=
  ∀ (v : Word) (s : State),
    (s.cfg.addressSpace.writeU16 (s.reg .sp) v s.space = none → push v s = .error (.addressRange (s.reg .sp) .write16)) ∧
    ∀ σ, s.cfg.addressSpace.writeU16 (s.reg .sp) v s.space = some σ → ∃ t, push v s = .ok t ∧
      t.reg .sp = s.reg .sp - 2 ∧ t.sfs = s.sfs + 2 ∧ t.space = σ ∧ RegsKept s t [.sp] ∧ t.cfg = s.cfg ∧ t.status = s.status

/-- R111. pop raises SP by 2 and lowers sfs by 2, modulo 2^16, and reads at the new SP. -/
def Obligations.PopRaisesSPThenReads : Prop :=
  ∀ s : State,
    (s.cfg.addressSpace.readU16 (s.reg .sp + 2) s.space = none → pop s = .error (.addressRange (s.reg .sp + 2) .read16)) ∧
    ∀ v σ, s.cfg.addressSpace.readU16 (s.reg .sp + 2) s.space = some (v, σ) → ∃ t, pop s = .ok (v, t) ∧
      t.reg .sp = s.reg .sp + 2 ∧ t.sfs = s.sfs - 2 ∧ t.space = σ ∧ RegsKept s t [.sp] ∧ t.cfg = s.cfg ∧ t.status = s.status

/-- R113, the LIFO law, where memory devices back both stack words, apart from each other. -/
def Obligations.PushPushPopPopIsLifo : Prop :=
  ∀ (s : State) (v w : Word) (k l : Nat),
    s.cfg.addressSpace.wordCell (s.reg .sp) = some k → s.cfg.addressSpace.wordCell (s.reg .sp - 2) = some l →
    k + 1 < l ∨ l + 1 < k →
    ∃ s₁ s₂ s₃ s₄, push v s = .ok s₁ ∧ push w s₁ = .ok s₂ ∧ pop s₂ = .ok (w, s₃) ∧ pop s₃ = .ok (v, s₄) ∧
      RegsKept s s₄ [] ∧ s₄.sfs = s.sfs ∧ BytesKept s s₄ [k, k + 1, l, l + 1] ∧ s₄.space.trace = s.space.trace

/-- R112, the stack's layout: after pushing a list of values whose words memory devices back, apart from each other, the value
pushed i-th lies at SP − 2i (i from 0), SP is lowered by twice their number, and no other byte has changed. -/
def Obligations.PushesLieDownward : Prop :=
  ∀ (s : State) (vs : List Word) (cell : Nat → Nat),
    (∀ j, j < vs.length → s.cfg.addressSpace.wordCell (pushAddr s j) = some (cell j)) →
    (∀ i j, i < j → j < vs.length → cell i + 1 < cell j ∨ cell j + 1 < cell i) →
    ∃ t, pushAll vs s = .ok t ∧
      (∀ j, (h : j < vs.length) → t.wordAt (pushAddr s j) = some vs[j]) ∧
      t.reg .sp = s.reg .sp - BitVec.ofNat 16 (2 * vs.length) ∧ t.sfs = s.sfs + BitVec.ofNat 16 (2 * vs.length) ∧
      RegsKept s t [.sp] ∧ ∀ k, (∀ j, j < vs.length → k ≠ cell j ∧ k ≠ cell j + 1) → t.space.mem.read k = s.space.mem.read k

/-- R114. PSH_LIT pushes the literal. -/
def Obligations.PshLitPushesLiteral : Prop :=
  (∀ (v : Word) (s : State),
    (s.cfg.addressSpace.writeU16 (s.reg .sp) v s.space = none →
      exec (.pshLit v) s = .fault (.addressRange (s.reg .sp) .write16)) ∧
    ∀ σ, s.cfg.addressSpace.writeU16 (s.reg .sp) v s.space = some σ → ∃ t, exec (.pshLit v) s = .next t ∧
      t.reg .sp = s.reg .sp - 2 ∧ t.sfs = s.sfs + 2 ∧ t.space = σ ∧ RegsKept s t [.sp] ∧
      t.cfg = s.cfg ∧ t.status = s.status) ∧
  ∀ (s : State) (A : Word) (σ : DeviceState), AtOpcode s .pshLit A σ →
    WordOperand s (A + 1) σ fun v σ => step s = exec (.pshLit v) (s.fetchedTo (A + 3) σ)

/-- R115. PSH_REG pushes the register's value before the push, SP and IP included. -/
def Obligations.PshRegPushesRegister : Prop :=
  (∀ (r : Reg) (s : State),
    (s.cfg.addressSpace.writeU16 (s.reg .sp) (s.reg r) s.space = none →
      exec (.pshReg r) s = .fault (.addressRange (s.reg .sp) .write16)) ∧
    ∀ σ, s.cfg.addressSpace.writeU16 (s.reg .sp) (s.reg r) s.space = some σ → ∃ t, exec (.pshReg r) s = .next t ∧
      t.reg .sp = s.reg .sp - 2 ∧ t.sfs = s.sfs + 2 ∧ t.space = σ ∧ RegsKept s t [.sp] ∧
      t.cfg = s.cfg ∧ t.status = s.status) ∧
  ∀ (s : State) (A : Word) (σ : DeviceState), AtOpcode s .pshReg A σ →
    RegOperand s (A + 1) σ fun r σ => step s = exec (.pshReg r) (s.fetchedTo (A + 2) σ)

/-- R116. POP leaves the popped word in the destination; with SP as the destination it overwrites the pop's own increment,
and sfs drops by 2 all the same. -/
def Obligations.PopLoadsPoppedWord : Prop :=
  (∀ (d : Reg) (s : State),
    (s.cfg.addressSpace.readU16 (s.reg .sp + 2) s.space = none →
      exec (.pop d) s = .fault (.addressRange (s.reg .sp + 2) .read16)) ∧
    ∀ v σ, s.cfg.addressSpace.readU16 (s.reg .sp + 2) s.space = some (v, σ) → ∃ t, exec (.pop d) s = .next t ∧
      t.reg d = v ∧ (d ≠ .sp → t.reg .sp = s.reg .sp + 2) ∧ t.sfs = s.sfs - 2 ∧ t.space = σ ∧
      RegsKept s t [.sp, d] ∧ t.cfg = s.cfg ∧ t.status = s.status) ∧
  ∀ (s : State) (A : Word) (σ : DeviceState), AtOpcode s .pop A σ →
    RegOperand s (A + 1) σ fun d σ => step s = exec (.pop d) (s.fetchedTo (A + 2) σ)

/-! ### Call and return (spec/44_call.md) -/

/-- R122, with R120. CAL_LIT pushes R1..R8, the return address and sfs + 20 in that order, sets FP and SP to SP − 20 and sfs to 0,
and jumps to the literal; the first push that fails is the fault. -/
def Obligations.CalLitSavesFrameAndJumps : Prop :=
  (∀ (a : Word) (s : State) (σ : Nat → DeviceState), σ 0 = s.space →
    (ServicedWrites s.cfg.addressSpace 10 (pushAddr s) (frameWord s) σ → ∃ t, exec (.calLit a) s = .next t ∧
      t.reg .ip = a ∧ t.reg .sp = s.reg .sp - 20 ∧ t.reg .fp = s.reg .sp - 20 ∧ t.sfs = 0 ∧ t.space = σ 10 ∧
      RegsKept s t [.ip, .sp, .fp] ∧ t.cfg = s.cfg ∧ t.status = s.status) ∧
    ∀ j, j < 10 → ServicedWrites s.cfg.addressSpace j (pushAddr s) (frameWord s) σ →
      s.cfg.addressSpace.writeU16 (pushAddr s j) (frameWord s j) (σ j) = none →
      exec (.calLit a) s = .fault (.addressRange (pushAddr s j) .write16)) ∧
  ∀ (s : State) (A : Word) (σ : DeviceState), AtOpcode s .calLit A σ →
    WordOperand s (A + 1) σ fun a σ => step s = exec (.calLit a) (s.fetchedTo (A + 3) σ)

/-- R120, R123. CAL_REG does the same with the register's value on entry as the target. Reading it before the pushes is the
spec's decision D7 (log 13). -/
def Obligations.CalRegSavesFrameAndJumps : Prop :=
  (∀ (r : Reg) (s : State) (σ : Nat → DeviceState), σ 0 = s.space →
    (ServicedWrites s.cfg.addressSpace 10 (pushAddr s) (frameWord s) σ → ∃ t, exec (.calReg r) s = .next t ∧
      t.reg .ip = s.reg r ∧ t.reg .sp = s.reg .sp - 20 ∧ t.reg .fp = s.reg .sp - 20 ∧ t.sfs = 0 ∧ t.space = σ 10 ∧
      RegsKept s t [.ip, .sp, .fp] ∧ t.cfg = s.cfg ∧ t.status = s.status) ∧
    ∀ j, j < 10 → ServicedWrites s.cfg.addressSpace j (pushAddr s) (frameWord s) σ →
      s.cfg.addressSpace.writeU16 (pushAddr s j) (frameWord s j) (σ j) = none →
      exec (.calReg r) s = .fault (.addressRange (pushAddr s j) .write16)) ∧
  ∀ (s : State) (A : Word) (σ : DeviceState), AtOpcode s .calReg A σ →
    RegOperand s (A + 1) σ fun r σ => step s = exec (.calReg r) (s.fetchedTo (A + 2) σ)

/-- R121, R124. RET pops the saved frame size, IP, R8..R1 and the argument count n from FP + 2 upward, reads and discards n
more words, and leaves SP = FP + 22 + 2n, FP raised by the saved size and sfs lowered from it by 20 + 2n; the first pop that
fails is the fault. Which value raises FP and that the discards are pops are the spec's decisions D8 and D9 (log 14). -/
def Obligations.RetRestoresFrame : Prop :=
  (∀ (s : State) (w : Nat → Word) (σ : Nat → DeviceState), σ 0 = s.space →
    (ServicedReads s.cfg.addressSpace (11 + (w 10).toNat) (popAddr s) w σ → ∃ t, exec .ret s = .next t ∧
      t.reg .ip = w 1 ∧ t.reg .r8 = w 2 ∧ t.reg .r7 = w 3 ∧ t.reg .r6 = w 4 ∧ t.reg .r5 = w 5 ∧
      t.reg .r4 = w 6 ∧ t.reg .r3 = w 7 ∧ t.reg .r2 = w 8 ∧ t.reg .r1 = w 9 ∧
      t.reg .sp = s.reg .fp + 22 + 2 * w 10 ∧ t.reg .fp = s.reg .fp + w 0 ∧ t.sfs = w 0 - 20 - 2 * w 10 ∧
      t.reg .acc = s.reg .acc ∧ t.space = σ (11 + (w 10).toNat) ∧ t.cfg = s.cfg ∧ t.status = s.status) ∧
    ∀ j, j < 11 + (w 10).toNat → ServicedReads s.cfg.addressSpace j (popAddr s) w σ →
      s.cfg.addressSpace.readU16 (popAddr s j) (σ j) = none →
      exec .ret s = .fault (.addressRange (popAddr s j) .read16)) ∧
  ∀ (s : State) (A : Word) (σ : DeviceState), AtOpcode s .ret A σ → step s = exec .ret (s.fetchedTo (A + 1) σ)

/-- R125, the frame's layout above the callee's FP, where memory devices back its ten words, apart from each other; no other
byte of memory is changed by the call. -/
def Obligations.CallLaysOutFrame : Prop :=
  ∀ (i : Instr) (s : State) (cell : Nat → Nat), (∃ a, i = .calLit a) ∨ (∃ r, i = .calReg r) →
    (∀ j, j < 10 → s.cfg.addressSpace.wordCell (pushAddr s j) = some (cell j)) →
    (∀ j l, j < l → l < 10 → cell j + 1 < cell l ∨ cell l + 1 < cell j) →
    ∃ t, exec i s = .next t ∧
      t.wordAt (t.reg .fp + 2) = some (s.sfs + 20) ∧ t.wordAt (t.reg .fp + 4) = some (s.reg .ip) ∧
      t.wordAt (t.reg .fp + 6) = some (s.reg .r8) ∧ t.wordAt (t.reg .fp + 8) = some (s.reg .r7) ∧
      t.wordAt (t.reg .fp + 10) = some (s.reg .r6) ∧ t.wordAt (t.reg .fp + 12) = some (s.reg .r5) ∧
      t.wordAt (t.reg .fp + 14) = some (s.reg .r4) ∧ t.wordAt (t.reg .fp + 16) = some (s.reg .r3) ∧
      t.wordAt (t.reg .fp + 18) = some (s.reg .r2) ∧ t.wordAt (t.reg .fp + 20) = some (s.reg .r1) ∧
      (∀ k, (∀ j, j < 10 → k ≠ cell j ∧ k ≠ cell j + 1) → t.space.mem.read k = s.space.mem.read k) ∧
      t.space.trace = s.space.trace

/-- R127, R128: a call and the return that matches it. Memory devices back the frame and the count word, apart from each
other. `u` is the state at the RET: whatever the callee did, FP, the frame words and the count word are as the call left them
and the n argument words can be read. That FP returns as the caller's SP + sfs and that sfs ends lowered by 2n rest on the
spec's decisions D8 and D9 (log 14), and that CAL_REG reads its target before the pushes on D7 (log 13); the wraps are D3 and
D22 (log 10, log 15). -/
def Obligations.CallThenReturnRoundTrips : Prop :=
  ∀ (i : Instr) (s : State) (a n : Word) (cell : Nat → Nat),
    (i = .calLit a ∨ ∃ r, i = .calReg r ∧ s.reg r = a) →
    (∀ j, j < 11 → s.cfg.addressSpace.wordCell (s.reg .sp + 2 - BitVec.ofNat 16 (2 * j)) = some (cell j)) →
    (∀ j l, j < l → l < 11 → cell j + 1 < cell l ∨ cell l + 1 < cell j) →
    s.wordAt (s.reg .sp + 2) = some n →
    ∃ c, exec i s = .next c ∧ c.reg .ip = a ∧
      (∀ k, (∀ j, 1 ≤ j → j < 11 → k ≠ cell j ∧ k ≠ cell j + 1) → c.space.mem.read k = s.space.mem.read k) ∧
      ∀ u : State, u.cfg = s.cfg → u.reg .fp = c.reg .fp →
        (∀ j, j < 11 → u.wordAt (popAddr c j) = c.wordAt (popAddr c j)) →
        (∀ j, j < n.toNat → (u.wordAt (popAddr c (11 + j))).isSome) →
        ∃ t, exec .ret u = .next t ∧ t.reg .ip = s.reg .ip ∧
          t.reg .r1 = s.reg .r1 ∧ t.reg .r2 = s.reg .r2 ∧ t.reg .r3 = s.reg .r3 ∧ t.reg .r4 = s.reg .r4 ∧
          t.reg .r5 = s.reg .r5 ∧ t.reg .r6 = s.reg .r6 ∧ t.reg .r7 = s.reg .r7 ∧ t.reg .r8 = s.reg .r8 ∧
          t.reg .sp = s.reg .sp + 2 + 2 * n ∧ t.reg .fp = s.reg .sp + s.sfs ∧
          (t.reg .fp = s.reg .fp ↔ s.sfs = s.reg .fp - s.reg .sp) ∧ t.sfs = s.sfs - 2 * n ∧
          t.space = u.space ∧ t.reg .acc = u.reg .acc

/-- R129, the frame balance E = FP − SP − sfs over every instruction: a call leaves it 0, a return leaves it −2, and every
other instruction keeps it unless its destination register is SP or FP. That a return leaves −2 rests on the spec's decisions
D8 and D9 (log 14: unsafe if the source is read otherwise), and the wraps on D3 and D22 (log 10, log 15). -/
def Obligations.FrameBalanceDrifts : Prop :=
  ∀ (i : Instr) (s t : State), exec i s = .next t →
    ((∃ a, i = .calLit a) ∨ (∃ r, i = .calReg r) → balance t = 0) ∧
    (i = .ret → balance t = -2) ∧
    ((∀ a, i ≠ .calLit a) → (∀ r, i ≠ .calReg r) → i ≠ .ret →
      (∀ d, d = .sp ∨ d = .fp →
        (∀ v, i ≠ .movLitReg v d) ∧ (∀ r, i ≠ .movRegReg r d) ∧ (∀ a, i ≠ .movMemReg a d) ∧ i ≠ .pop d) →
      balance t = balance s)

/-! ### System and decode (spec/45_system.md, spec/30_encoding.md) -/

/-- R135. HLT ends in the outcome Halt, with IP past it and nothing else changed. That Halt is a next state whose status says
so is the model's choice (log 6). -/
def Obligations.HltHalts : Prop :=
  (∀ s : State, ∃ t, exec .hlt s = .next t ∧ t.status = .halted ∧ RegsKept s t [] ∧ t.sfs = s.sfs ∧ t.space = s.space ∧
    t.cfg = s.cfg) ∧
  ∀ (s : State) (A : Word) (σ : DeviceState), AtOpcode s .hlt A σ →
    ∃ t, step s = .next t ∧ StepOutcome.of? (step s) = some (.halts t) ∧ t.reg .ip = A + 1 ∧ RegsKept s t [.ip] ∧
      t.sfs = s.sfs ∧ t.space = σ ∧ t.cfg = s.cfg

/-- R136. A step that fetches 0x00 ends in the outcome EndOfProgram(A), with IP = A + 1 and nothing else changed; it is not
Halt. The rendering as a next state is the model's choice (log 6). -/
def Obligations.ZeroByteEndsProgram : Prop :=
  ∀ (s : State) (A : Word) (σ : DeviceState), AtByte s 0x00 A σ →
    ∃ t, step s = .next t ∧ StepOutcome.of? (step s) = some (.endsProgram t A) ∧ t.reg .ip = A + 1 ∧ RegsKept s t [.ip] ∧
      t.sfs = s.sfs ∧ t.space = σ ∧ t.cfg = s.cfg

/-- R137. A step that fetches a byte that is neither 0x00 nor an opcode faults with UnknownOpcode, the byte and its address;
0xEE does so under every admitted opcode map (R79). -/
def Obligations.UnknownByteFaults : Prop :=
  (∀ (s : State) (b : Byte) (A : Word) (σ : DeviceState), AtByte s b A σ → b ≠ 0x00 → (∀ k, s.cfg.opcodes.byte k ≠ b) →
    step s = .fault (.unknownOpcode b A)) ∧
  ∀ (s : State) (A : Word) (σ : DeviceState), AtByte s 0xEE A σ → step s = .fault (.unknownOpcode 0xEE A)

/-- R138: a step whose opcode byte cannot be read faults at IP. -/
def Obligations.UnreadableOpcodeFaults : Prop :=
  ∀ s : State, s.cfg.wf = true → s.status = .running → s.cfg.addressSpace.readU8 (s.reg .ip) s.space = none →
    step s = .fault (.addressRange (s.reg .ip) .fetch8)

/-- R50, R79, R166: no step in an ill-formed configuration and none after a stop. That these are refusals is the model's choice
(log 5, log 6). -/
def Obligations.NoStepWithoutRun : Prop :=
  (∀ s : State, s.cfg.wf = false → step s = .refused .illFormedConfig) ∧
  ∀ s : State, s.cfg.wf = true → s.status ≠ .running → step s = .refused .runEnded

/-- A step runs the decoded instruction (R138): where memory devices hold the code of an instruction at IP, each field as its
own access reads it, the step is the instruction's execution with IP past it. -/
def Obligations.StepRunsDecodedInstruction : Prop :=
  ∀ (s : State) (code : List Byte) (i : Instr), s.cfg.wf = true → s.status = .running →
    decode s.cfg.opcodes s.cfg.ordinals code = .ok (i, []) → CodeAt s i.mnemonic (s.reg .ip) code →
    step s = exec i (s.fetchedTo (s.reg .ip + BitVec.ofNat 16 code.length) s.space)

/-- The host's placement of a table word: the next step runs the instruction the decoder reads from it. The state's address
space and ordinal policy are the defaults, and five bytes from IP on do not pass the top of the address space (log 17). -/
def Obligations.FetchWordIsNextInstruction : Prop :=
  ∀ (s : State) (nbits w : Nat) (i : Instr), s.cfg.addressSpace = Device.default → s.cfg.ordinals = .fault →
    (s.reg .ip).toNat + 5 ≤ 65536 → decodeTableWord nbits w = some i →
    step (s.withFetchWord nbits w) =
      exec i ((s.withFetchWord nbits w).fetchedTo (s.reg .ip + BitVec.ofNat 16 i.mnemonic.length)
        (s.withFetchWord nbits w).space)

/-- Decoding an encoding gives the instruction back with the bytes after it, for every instruction, every admitted opcode map
and both ordinal policies (R77, R79). -/
def Obligations.DecodeOfEncode : Prop :=
  ∀ (m : OpcodeMap) (p : OrdinalPolicy) (i : Instr) (rest : List Byte), m.wf = true →
    decode m p (encode m i ++ rest) = .ok (i, rest)

/-- Under the policy `fault` the bytes that decode to an instruction are its encoding, so no two byte strings encode one
instruction (R75, R77). -/
def Obligations.EncodeOfDecode : Prop :=
  ∀ (m : OpcodeMap) (code rest : List Byte) (i : Instr), decode m .fault code = .ok (i, rest) → code = encode m i ++ rest

/-- R80: what an opcode byte selects, under every admitted map. -/
def Obligations.OpcodeByteSelects : Prop :=
  ∀ (m : OpcodeMap) (b : Byte), m.wf = true →
    (∀ k, decodeOpcode m b = .instr k ↔ m.byte k = b) ∧
    (decodeOpcode m b = .endOfProgram ↔ (∀ k, m.byte k ≠ b) ∧ b = 0x00) ∧
    (decodeOpcode m b = .unknown ↔ (∀ k, m.byte k ≠ b) ∧ b ≠ 0x00)

/-- R81: under every admitted map, so under the default one, 242 opcode bytes are illegal. -/
def Obligations.IllegalOpcodeBytesNumber242 : Prop :=
  OpcodeMap.default.wf = true ∧
  ∀ m : OpcodeMap, m.wf = true →
    ((List.range 256).countP fun n => decodeOpcode m (BitVec.ofNat 8 n) == .unknown) = 242

/-- R75, R76: the register an ordinal byte names under each policy. -/
def Obligations.OrdinalByteNamesRegister : Prop :=
  ∀ (b : Byte) (r : Reg),
    (regOfByte .fault b = none ↔ 12 ≤ b.toNat) ∧ (regOfByte .fault b = some r ↔ r.ordinal = b.toNat) ∧
    (regOfByte .mask b = some r ↔ r.ordinal = b.toNat % 12) ∧ regOfByte .mask b ≠ none

/-- R73, R74, R75: the three fetch helpers, each one access at IP, with what each leaves and what each raises. -/
def Obligations.FetchHelpersReadAtIP : Prop :=
  ∀ s : State,
    (s.cfg.addressSpace.readU8 (s.reg .ip) s.space = none →
      fetch8 s = .error (.addressRange (s.reg .ip) .fetch8) ∧ fetchReg s = .error (.addressRange (s.reg .ip) .fetch8)) ∧
    (s.cfg.addressSpace.readU16 (s.reg .ip) s.space = none → fetch16 s = .error (.addressRange (s.reg .ip) .fetch16)) ∧
    (∀ w σ, s.cfg.addressSpace.readU16 (s.reg .ip) s.space = some (w, σ) →
      fetch16 s = .ok (w, s.fetchedTo (s.reg .ip + 2) σ)) ∧
    ∀ b σ, s.cfg.addressSpace.readU8 (s.reg .ip) s.space = some (b, σ) →
      fetch8 s = .ok (b, s.fetchedTo (s.reg .ip + 1) σ) ∧
      (s.cfg.ordinals = .fault → 12 ≤ b.toNat → fetchReg s = .error (.invalidRegister b (s.reg .ip))) ∧
      ∀ r, Names s.cfg.ordinals b r → fetchReg s = .ok (r, s.fetchedTo (s.reg .ip + 1) σ)

/-- A few words written out from R77 and R79's default map decode to the instructions they stand for. -/
def Obligations.SpecExamplesDecode : Prop :=
  decode OpcodeMap.default .fault [0x10, 0x12, 0x34, 0x02] = .ok (.movLitReg 0x1234 .r1, []) ∧
  decode OpcodeMap.default .fault [0x14, 0x02, 0x03] = .ok (.addRegReg .r1 .r2, []) ∧
  decode OpcodeMap.default .fault [0x15, 0x00, 0x05, 0x00, 0x04] = .ok (.jmpNotEq 0x0005 0x0004, []) ∧
  decode OpcodeMap.default .fault [0x5E, 0x30, 0x00] = .ok (.calLit 0x3000, []) ∧
  decode OpcodeMap.default .fault [0xEE] = .error (.unknownOpcode 0xEE)

/-! ### The memory device and the mapper (spec/20_memory.md) -/

/-- R42, R44: the plain memory device of N bytes. An access is serviced exactly when its last byte is below N, without
wrap-around; a word is big-endian; a write changes only the bytes it writes. -/
def Obligations.PlainMemoryIsBigEndianArray : Prop :=
  ∀ (id size : Nat) (o : Word) (σ : DeviceState),
    ((Device.memory id size).readU8 o σ =
      if o.toNat < size then some (σ.mem.read (cellKey id o.toNat), σ) else none) ∧
    ((Device.memory id size).readU16 o σ =
      if o.toNat + 1 < size then
        some (joinBytes (σ.mem.read (cellKey id o.toNat)) (σ.mem.read (cellKey id (o.toNat + 1))), σ) else none) ∧
    (∀ v, ((Device.memory id size).writeU8 o v σ = none ↔ ¬ o.toNat < size) ∧
      ∀ σ', (Device.memory id size).writeU8 o v σ = some σ' → σ'.trace = σ.trace ∧
        ∀ k, σ'.mem.read k = if k = cellKey id o.toNat then v else σ.mem.read k) ∧
    ∀ v, ((Device.memory id size).writeU16 o v σ = none ↔ ¬ o.toNat + 1 < size) ∧
      ∀ σ', (Device.memory id size).writeU16 o v σ = some σ' → σ'.trace = σ.trace ∧
        ∀ k, σ'.mem.read k = if k = cellKey id o.toNat then hi8 v
          else if k = cellKey id (o.toNat + 1) then lo8 v else σ.mem.read k

/-- R43, the mixed-width view, through any device tree in which o and o+1 reach one memory device at consecutive offsets. -/
def Obligations.MixedWidthViewsAgree : Prop :=
  ∀ (d : Device) (o : Word) (k : Nat) (σ : DeviceState),
    d.wordCell o = some k → d.byteCell (o + 1) = some (k + 1) →
    (∀ v, ∃ σ', d.writeU16 o v σ = some σ' ∧ d.readU8 o σ' = some (hi8 v, σ') ∧ d.readU8 (o + 1) σ' = some (lo8 v, σ')) ∧
    ∀ a b, ∃ σ₁ σ₂, d.writeU8 o a σ = some σ₁ ∧ d.writeU8 (o + 1) b σ₁ = some σ₂ ∧
      d.readU16 o σ₂ = some (joinBytes a b, σ₂)

/-- R52, R53, R54, R56, R58: a mapper forwards every operation, unchanged, to the device of the first region that contains the
address, most recently mapped first, at the translated offset; if no region contains it the operation fails. The device may
be a mapper again. -/
def Obligations.MapperForwardsToFirstRegion : Prop :=
  (∀ (a : Word) (σ : DeviceState),
    (Device.mapper .nil).readU8 a σ = none ∧ (Device.mapper .nil).readU16 a σ = none ∧
    (∀ v, (Device.mapper .nil).writeU8 a v σ = none) ∧ ∀ v, (Device.mapper .nil).writeU16 a v σ = none) ∧
  ∀ (d : Device) (start last : Word) (remap : Bool) (older : Regions) (a : Word) (σ : DeviceState),
    let m := Device.mapper (.cons d start last remap older)
    let off := if remap then a - start else a
    (start ≤ a ∧ a ≤ last →
      m.readU8 a σ = d.readU8 off σ ∧ m.readU16 a σ = d.readU16 off σ ∧
      (∀ v, m.writeU8 a v σ = d.writeU8 off v σ) ∧ ∀ v, m.writeU16 a v σ = d.writeU16 off v σ) ∧
    (¬ (start ≤ a ∧ a ≤ last) →
      m.readU8 a σ = (Device.mapper older).readU8 a σ ∧ m.readU16 a σ = (Device.mapper older).readU16 a σ ∧
      (∀ v, m.writeU8 a v σ = (Device.mapper older).writeU8 a v σ) ∧
      ∀ v, m.writeU16 a v σ = (Device.mapper older).writeU16 a v σ)

/-- R55: for an address that exactly one region of a mapper contains, a remapped region over a plain memory device, a word
write that succeeds is read back, reaches that device at the local offset a − start, and changes no other byte; and the
mapper's answer is the device's. -/
def Obligations.WriteThenReadThroughMapper : Prop :=
  ∀ (rs : Regions) (a start last : Word) (id size : Nat) (σ : DeviceState) (v : Word),
    (regionList rs).filter (fun r => inRegion r.start r.last a) = [⟨.memory id size, start, last, true⟩] →
    (Device.mapper rs).writeU16 a v σ = (Device.memory id size).writeU16 (a - start) v σ ∧
    ∀ σ', (Device.mapper rs).writeU16 a v σ = some σ' →
      (Device.mapper rs).readU16 a σ' = some (v, σ') ∧ σ'.trace = σ.trace ∧
      ∀ k, σ'.mem.read k = if k = cellKey id (a.toNat - start.toNat) then hi8 v
        else if k = cellKey id (a.toNat - start.toNat + 1) then lo8 v else σ.mem.read k

/-- R57: a 16-bit access goes whole to the device of the first region that holds its first byte, whatever region holds the
second, be it mapped earlier or later: over a plain memory device it is serviced exactly when the device has the byte at the
first byte's offset plus one. -/
def Obligations.StraddlingAccessStaysOnFirstDevice : Prop :=
  ∀ (rs : Regions) (id size : Nat) (start last : Word) (remap : Bool) (a v : Word) (σ : DeviceState),
    (regionList rs).find? (fun r => inRegion r.start r.last a) = some ⟨.memory id size, start, last, remap⟩ →
    let m := Device.mapper rs
    let off := if remap then a.toNat - start.toNat else a.toNat
    (off + 1 < size →
      m.readU16 a σ = some (joinBytes (σ.mem.read (cellKey id off)) (σ.mem.read (cellKey id (off + 1))), σ) ∧
      m.writeU16 a v σ = some { σ with mem := (σ.mem.write (cellKey id off) (hi8 v)).write (cellKey id (off + 1)) (lo8 v) }) ∧
    (size ≤ off + 1 → m.readU16 a σ = none ∧ m.writeU16 a v σ = none)

/-- R50: map fails exactly when start ≥ end; the new region stands ahead of the earlier ones, and the list keeps passing its
checks. -/
def Obligations.MapRefusesEmptyRange : Prop :=
  ∀ (d : Device) (start last : Word) (remap : Bool) (mapped : Regions),
    (mapRegion d start last remap mapped = none ↔ last ≤ start) ∧
    ∀ rs, mapRegion d start last remap mapped = some rs →
      rs = .cons d start last remap mapped ∧ (d.wf = true → mapped.wf = true → rs.wf = true)

/-- R68: the default address space (the spec's decision D26, log 4) is one array of 65536 bytes: every byte access is serviced,
and every word access, odd or even, but the one at 0xFFFF. -/
def Obligations.DefaultSpaceIsFlatMemory : Prop :=
  ∀ (a : Word) (σ : DeviceState),
    Device.default.readU8 a σ = some (σ.mem.read a.toNat, σ) ∧
    (a ≠ 0xFFFF → Device.default.readU16 a σ = some (joinBytes (σ.mem.read a.toNat) (σ.mem.read (a.toNat + 1)), σ) ∧
      ∀ v, Device.default.writeU16 a v σ = some { σ with mem := (σ.mem.write a.toNat (hi8 v)).write (a.toNat + 1) (lo8 v) }) ∧
    (a = 0xFFFF → Device.default.readU16 a σ = none ∧ ∀ v, Device.default.writeU16 a v σ = none)

/-- R64: a word that MOV_REG_MEM stores, where memory devices serve it, is seen by each fetch helper: a fetch of a byte or of a
word, at any address, from the same memory bytes or from others, gives the stored high and low byte at the two bytes stored
to and what was there at any other; fetch_reg reads its ordinal so. The next fetch at the stored address itself gives the word,
and one byte further on its low byte. -/
def Obligations.StoreIsSeenByNextFetch : Prop :=
  ∀ (r : Reg) (a : Word) (s : State) (k : Nat), s.cfg.addressSpace.wordCell a = some k →
    ∃ t, exec (.movRegMem r a) s = .next t ∧
      let now := fun c => if c = k then hi8 (s.reg r) else if c = k + 1 then lo8 (s.reg r) else s.space.mem.read c
      ∀ u : State, u.space = t.space → u.cfg = s.cfg →
        (u.reg .ip = a → fetch8 u = .ok (hi8 (s.reg r), u.setReg .ip (a + 1)) ∧
          fetch16 u = .ok (s.reg r, u.setReg .ip (a + 2))) ∧
        (∀ c, s.cfg.addressSpace.byteCell (u.reg .ip) = some c →
          fetch8 u = .ok (now c, u.setReg .ip (u.reg .ip + 1)) ∧
          (∀ q, Names s.cfg.ordinals (now c) q → fetchReg u = .ok (q, u.setReg .ip (u.reg .ip + 1))) ∧
          (s.cfg.ordinals = .fault → 12 ≤ (now c).toNat → fetchReg u = .error (.invalidRegister (now c) (u.reg .ip)))) ∧
        ∀ c, s.cfg.addressSpace.wordCell (u.reg .ip) = some c →
          fetch16 u = .ok (joinBytes (now c) (now (c + 1)), u.setReg .ip (u.reg .ip + 2))

/-- R162: boot loads an image that fits the primary memory device: its bytes stand at consecutive offsets of that device and no
other byte of any memory changes, and the engine is constructed over it with an empty record. That an image which does not fit
boots nothing, and that the primary device is named by its identity, are the model's choices (log 27, log 28). -/
def Obligations.LoadImagePlacesBytes : Prop :=
  ∀ (cfg : Config) (entry : Word) (img : Image) (initial : Memory),
    let size := cfg.addressSpace.memorySize img.primary
    let key := fun j => cellKey img.primary (img.offset.toNat + j)
    (img.bytes = [] ∨ img.offset.toNat + img.bytes.length ≤ size →
      ∃ s, State.boot cfg entry img initial = some s ∧ s = State.construct cfg entry s.space ∧ s.space.trace = [] ∧
        (∀ j, (h : j < img.bytes.length) → s.space.mem.read (key j) = img.bytes[j]) ∧
        ∀ k, (∀ j, j < img.bytes.length → k ≠ key j) → s.space.mem.read k = initial.read k) ∧
    (img.bytes ≠ [] → size < img.offset.toNat + img.bytes.length → State.boot cfg entry img initial = none)

/-! ### Faults (spec/60_exceptions.md) -/

/-- R142, the data errors of each instruction: which instruction can raise which AddressRange and at which addresses; the
others raise nothing in execution, and no instruction is refused. -/
def Obligations.DataFaultsAreThoseOfTheTable : Prop :=
  ∀ (i : Instr) (s : State), (∀ q, exec i s ≠ .refused q) ∧ ∀ f, exec i s = .fault f →
    (∃ r a, i = .movRegMem r a ∧ f = .addressRange a .write16) ∨
    (∃ a d, i = .movMemReg a d ∧ f = .addressRange a .read16) ∨
    (((∃ v, i = .pshLit v) ∨ ∃ r, i = .pshReg r) ∧ f = .addressRange (s.reg .sp) .write16) ∨
    ((∃ d, i = .pop d) ∧ f = .addressRange (s.reg .sp + 2) .read16) ∨
    (((∃ a, i = .calLit a) ∨ ∃ r, i = .calReg r) ∧ ∃ j, j < 10 ∧ f = .addressRange (pushAddr s j) .write16) ∨
    (i = .ret ∧ ∃ j, j < 11 + 65535 ∧ f = .addressRange (popAddr s j) .read16)

/-- R24, R141: no step raises InvariantViolation. -/
def Obligations.InvariantViolationNeverRaised : Prop :=
  ∀ s : State, step s ≠ .fault .invariantViolation

/-! ### Frames and whole-machine rules -/

/-- R23, the register access law, for each of the twelve registers and every value. -/
def Obligations.RegisterAccessLaw : Prop :=
  ∀ (s : State) (r : Reg) (v : Word), (s.setReg r v).reg r = v ∧ ∀ q, q ≠ r → (s.setReg r v).reg q = s.reg q

/-- R140, R83: a step of a run has exactly one of the four outcomes: Halt only after the opcode of HLT was fetched at IP,
EndOfProgram only after 0x00 was, Continue only after another opcode was, and a Fault otherwise; it is never refused. That the
first three are next states is the model's choice (log 6). -/
def Obligations.StepReturnsOneOutcome : Prop :=
  ∀ s : State, s.cfg.wf = true → s.status = .running →
    let read := s.cfg.addressSpace.readU8 (s.reg .ip) s.space
    ∃ o, StepOutcome.of? (step s) = some o ∧
      (∀ t, o = .halts t → ∃ σ, read = some (s.cfg.opcodes.byte .hlt, σ)) ∧
      (∀ t A, o = .endsProgram t A → A = s.reg .ip ∧ ∃ σ, read = some (0x00, σ)) ∧
      (∀ t, o = .continues t → ∃ k σ, k ≠ .hlt ∧ read = some (s.cfg.opcodes.byte k, σ))

/-- R25, R30: what each instruction may change. Only the registers R25 lists as written by it; sfs only by a push, pop, call
or return; never the configuration (R51); the outcome only by HLT. -/
def Obligations.InstructionsWriteOnlyTheirRegisters : Prop :=
  ∀ (i : Instr) (s t : State), exec i s = .next t →
    RegsKept s t (writtenRegs i) ∧ (touchesSfs i = false → t.sfs = s.sfs) ∧ t.cfg = s.cfg ∧
    t.status = if i = .hlt then .halted else s.status

/-- The memory frame of every instruction: each byte of each memory device reads as before, except the bytes behind the words
the instruction stores, at the addresses its meaning computes; a form that stores nothing changes none, for a read of a memory
device has no side effect (R45). That a peripheral that services an operation changes no memory is the model's reading (log 24:
DEDUCED, unsafe on a platform with a peripheral that writes into a memory). -/
def Obligations.InstructionsStoreOnlyTheirBytes : Prop :=
  ∀ (i : Instr) (s t : State), exec i s = .next t → BytesKept s t (storedKeys s i)

/-- R59, R62: a step performs its Device operations on the address space in order, and nothing else: the opcode byte, the
operands and then the data accesses of the instruction that its fetch decodes at IP, never a write_u8. The record of the peripherals grows at its newest end
by one event for each of them that goes to a peripheral, in the same order, with that peripheral's identity and offset and
the value written; where the address space holds no peripheral it does not grow. The record is the model's own field (log 8,
log 25). -/
def Obligations.PeripheralRecordGrows : Prop :=
  ∀ s t : State, step s = .next t →
    let d := s.cfg.addressSpace
    ∃ (ops : List DeviceOp) (events : List PeripheralEvent), StepIssues s t ops ∧
      performAll d ops s.space = some t.space ∧ t.space.trace = events.reverse ++ s.space.trace ∧
      List.Forall₂ (DeviceOp.Recorded d) (ops.filter (DeviceOp.toPeripheral d)) events ∧
      (∀ e ∈ events, ∀ v, e.op ≠ .write8 v) ∧ (memoryOnly d = true → events = [])

/-- R51: the configuration at the end of a run, of any length, is the one it began with. -/
def Obligations.ConfigurationIsFixed : Prop :=
  ∀ (fuel : Nat) (s t : State), runFor fuel s = .next t → t.cfg = s.cfg

/-- R139, R166: a run that halts has one end: every longer run ends in the same state, and the run is no hang. -/
def Obligations.HaltEndsTheRun : Prop :=
  ∀ (fuel : Nat) (s t : State), s.status = .running → HaltsIn fuel s t → (∀ more, fuel ≤ more → runFor more s = .next t) ∧ ¬ Hangs s

/-! ### Reset and the invariant -/

/-- R34, R160: at construction SP and FP are 0xFFFE over every address space. The other values (IP = ENTRY_IP, the rest zero)
are the spec's decision D10 (log 3), and the status is the model's (log 6). -/
def Obligations.ConstructionValues : Prop :=
  ∀ (c : Config) (entry : Word) (σ : DeviceState),
    let s := State.construct c entry σ
    s.reg .sp = 0xFFFE ∧ s.reg .fp = 0xFFFE ∧ s.reg .ip = entry ∧ s.sfs = 0 ∧
    (∀ r, r ≠ .ip → r ≠ .sp → r ≠ .fp → s.reg r = 0) ∧ balance s = 0 ∧
    s.space = σ ∧ s.cfg = c ∧ s.status = .running

/-- The invariant holds at reset. -/
def Obligations.ResetMeetsTheInvariant : Prop := Inv State.reset

/-- Every step keeps the invariant: a well-formed configuration, canonical memory contents, and every listed byte inside a
memory device of the address space (R44, R50, R51, R79). -/
def Obligations.StepKeepsTheInvariant : Prop :=
  ∀ s t : State, Inv s → step s = .next t → Inv t

/-- R21, R22: the 24-byte register buffer holds register k at bytes 2k and 2k + 1, high byte first. -/
def Obligations.RegisterBufferIsPacked : Prop :=
  ∀ (x : RegFile) (r : Reg), x.buffer.length = 24 ∧
    x.buffer[2 * r.ordinal]? = some (hi8 (x.get r)) ∧ x.buffer[2 * r.ordinal + 1]? = some (lo8 (x.get r))

/-! ### Peripherals and boot -/

/-- R46, R62: what each of the four operations does on a peripheral. Its answer is the free value of the peripheral for the
record so far, the offset and, for a write, the value; an operation that is serviced leaves every memory byte as it was and
puts exactly its own event at the head of the record; one that is not answers nothing. The free values, the record and that
a peripheral changes no memory are the model's (log 8, log 24, log 25). -/
def Obligations.PeripheralOperationIsRecorded : Prop :=
  ∀ (id : Nat) (o : Word) (σ σ' : DeviceState),
    let added := fun op => σ'.mem = σ.mem ∧ σ'.trace = ⟨id, o, op⟩ :: σ.trace
    (∀ b, (Device.peripheral id).readU8 o σ = some (b, σ') ↔
      Config.peripheralRead8 id σ.trace o = some b ∧ added (.read8 b)) ∧
    (∀ v, (Device.peripheral id).readU16 o σ = some (v, σ') ↔
      Config.peripheralRead16 id σ.trace o = some v ∧ added (.read16 v)) ∧
    (∀ b, (Device.peripheral id).writeU8 o b σ = some σ' ↔
      Config.peripheralWrite8 id σ.trace o b = true ∧ added (.write8 b)) ∧
    ∀ v, (Device.peripheral id).writeU16 o v σ = some σ' ↔
      Config.peripheralWrite16 id σ.trace o v = true ∧ added (.write16 v)

/-- R162 with R44, R50, R79: an engine booted in a well-formed configuration, over memories whose initial contents are in
canonical form and inside the memory devices of the tree, starts in the invariant, whatever image was loaded. That an image
which does not fit boots nothing is the model's choice (log 27). -/
def Obligations.BootMeetsTheInvariant : Prop :=
  ∀ (cfg : Config) (entry : Word) (img : Image) (initial : Memory) (s : State),
    cfg.wf = true → initial.wf → (∀ c ∈ initial, backs cfg.addressSpace c.1 = true) →
    State.boot cfg entry img initial = some s → Inv s
end

