-- ==== Sys2Proof/Laws/State.lean ====
section
/-!
SUPPORT. The register file and the state record: what each read gives after each update.
-/

namespace Sys2Proof.Machine

/-! ### The register file (R23) -/

@[simp] theorem RegFile.get_set (x : RegFile) (r q : Reg) (v : Word) :
    (x.set r v).get q = if q = r then v else x.get q := by
  cases r <;> cases q <;> rfl

/-- A register file is its twelve values. -/
theorem RegFile.ext_get {x y : RegFile} (h : ∀ r, x.get r = y.get r) : x = y := by
  have h0 := h .ip; have h1 := h .acc; have h2 := h .r1; have h3 := h .r2; have h4 := h .r3; have h5 := h .r4
  have h6 := h .r5; have h7 := h .r6; have h8 := h .r7; have h9 := h .r8; have h10 := h .sp; have h11 := h .fp
  cases x; cases y
  simp only [RegFile.get] at h0 h1 h2 h3 h4 h5 h6 h7 h8 h9 h10 h11
  simp only [h0, h1, h2, h3, h4, h5, h6, h7, h8, h9, h10, h11]

/-! ### `setReg` -/

@[simp] theorem reg_setReg (s : State) (r q : Reg) (v : Word) :
    (s.setReg r v).reg q = if q = r then v else s.reg q := RegFile.get_set ..
@[simp] theorem sfs_setReg (s : State) (r : Reg) (v : Word) : (s.setReg r v).sfs = s.sfs := rfl
@[simp] theorem space_setReg (s : State) (r : Reg) (v : Word) : (s.setReg r v).space = s.space := rfl
@[simp] theorem cfg_setReg (s : State) (r : Reg) (v : Word) : (s.setReg r v).cfg = s.cfg := rfl
@[simp] theorem status_setReg (s : State) (r : Reg) (v : Word) : (s.setReg r v).status = s.status := rfl

/-! ### `setSfs` -/

@[simp] theorem reg_setSfs (s : State) (r : Reg) (v : Word) : (s.setSfs v).reg r = s.reg r := rfl
@[simp] theorem sfs_setSfs (s : State) (v : Word) : (s.setSfs v).sfs = v := rfl
@[simp] theorem space_setSfs (s : State) (v : Word) : (s.setSfs v).space = s.space := rfl
@[simp] theorem cfg_setSfs (s : State) (v : Word) : (s.setSfs v).cfg = s.cfg := rfl
@[simp] theorem status_setSfs (s : State) (v : Word) : (s.setSfs v).status = s.status := rfl

/-! ### `setSpace` -/

@[simp] theorem reg_setSpace (s : State) (r : Reg) (σ : DeviceState) : (s.setSpace σ).reg r = s.reg r := rfl
@[simp] theorem sfs_setSpace (s : State) (σ : DeviceState) : (s.setSpace σ).sfs = s.sfs := rfl
@[simp] theorem space_setSpace (s : State) (σ : DeviceState) : (s.setSpace σ).space = σ := rfl
@[simp] theorem cfg_setSpace (s : State) (σ : DeviceState) : (s.setSpace σ).cfg = s.cfg := rfl
@[simp] theorem status_setSpace (s : State) (σ : DeviceState) : (s.setSpace σ).status = s.status := rfl

/-! ### `setStatus` -/

@[simp] theorem reg_setStatus (s : State) (r : Reg) (st : Status) : (s.setStatus st).reg r = s.reg r := rfl
@[simp] theorem sfs_setStatus (s : State) (st : Status) : (s.setStatus st).sfs = s.sfs := rfl
@[simp] theorem space_setStatus (s : State) (st : Status) : (s.setStatus st).space = s.space := rfl
@[simp] theorem cfg_setStatus (s : State) (st : Status) : (s.setStatus st).cfg = s.cfg := rfl
@[simp] theorem status_setStatus (s : State) (st : Status) : (s.setStatus st).status = st := rfl

/-- Two states are equal if every register and every other field is. -/
theorem State.ext_reg {s t : State} (hr : ∀ r, s.reg r = t.reg r) (hf : s.sfs = t.sfs) (hσ : s.space = t.space)
    (hc : s.cfg = t.cfg) (hs : s.status = t.status) : s = t := by
  have hx : s.regs = t.regs := RegFile.ext_get hr
  cases s; cases t
  simp_all

end Sys2Proof.Machine
end

