-- ==== Sys2Proof/Laws/Memory.lean ====
section
/-!
SUPPORT. The contents of the memory devices: read after write, the canonical form, and that it makes equal memories equal
data. The read and write laws hold of every list, canonical or not.
-/

namespace Sys2Proof

/-! ### Byte order (R42) -/

@[simp] theorem joinBytes_hi_lo (v : Word) : joinBytes (hi8 v) (lo8 v) = v := by
  simp only [joinBytes, hi8, lo8]
  ext i hi
  simp only [BitVec.getElem_append, BitVec.getElem_extractLsb']
  split
  · simp only [Nat.zero_add]; exact BitVec.getLsbD_eq_getElem hi
  · rw [show 8 + (i - 8) = i by omega]; exact BitVec.getLsbD_eq_getElem hi

@[simp] theorem hi8_joinBytes (a b : Byte) : hi8 (joinBytes a b) = a := by
  simp only [joinBytes, hi8]
  ext i hi
  rw [BitVec.getElem_extractLsb', show (a ++ b : Word).getLsbD (8 + i) = _ from BitVec.getLsbD_append]
  simp [BitVec.getLsbD_eq_getElem hi]

@[simp] theorem lo8_joinBytes (a b : Byte) : lo8 (joinBytes a b) = b := by
  simp only [joinBytes, lo8]
  ext i hi
  rw [BitVec.getElem_extractLsb', show (a ++ b : Word).getLsbD (0 + i) = _ from BitVec.getLsbD_append]
  simp [hi]

namespace Machine

/-! ### Read after write -/

/-- Neighbouring bytes of a device have neighbouring keys. -/
theorem cellKey_add (id o j : Nat) : cellKey id (o + j) = cellKey id o + j := by simp only [cellKey, Nat.add_assoc]

@[simp] theorem Memory.read_nil (k : Nat) : Memory.read [] k = unlistedByte := rfl

theorem Memory.read_cons (c : Host.Cell) (m : Memory) (k : Nat) :
    Memory.read (c :: m) k = if c.1 = k then c.2 else Memory.read m k := by
  by_cases h : c.1 = k <;> simp [Memory.read, h]

theorem Memory.erase_cons (c : Host.Cell) (m : Memory) (k : Nat) :
    Memory.erase (c :: m) k = if c.1 = k then Memory.erase m k else c :: Memory.erase m k := by
  by_cases h : c.1 = k <;> simp [Memory.erase, h]

theorem Memory.read_erase (m : Memory) (k q : Nat) :
    Memory.read (Memory.erase m k) q = if q = k then unlistedByte else Memory.read m q := by
  induction m with
  | nil => simp [Memory.erase]
  | cons c m ih =>
    rw [Memory.erase_cons, Memory.read_cons]
    by_cases hk : c.1 = k
    · rw [if_pos hk, ih]
      by_cases hq : q = k
      · simp [hq]
      · rw [if_neg hq, if_neg hq, if_neg (by omega)]
    · rw [if_neg hk, Memory.read_cons, ih]
      by_cases hq : c.1 = q
      · rw [if_pos hq, if_pos hq, if_neg (by omega)]
      · rw [if_neg hq, if_neg hq]

theorem Memory.read_insert (m : Memory) (k q : Nat) (b : Byte) (hm : ∀ c ∈ m, c.1 ≠ k) :
    Memory.read (Memory.insert m k b) q = if q = k then b else Memory.read m q := by
  induction m with
  | nil =>
    rw [Memory.insert, Memory.read_cons]
    by_cases h : q = k
    · simp [h]
    · rw [if_neg h, if_neg (Ne.symm h)]
  | cons c m ih =>
    have hc : c.1 ≠ k := hm c (by simp)
    rw [Memory.insert]
    split
    · rw [Memory.read_cons]
      by_cases hq : k = q <;> simp [hq, eq_comm]
    · rw [Memory.read_cons, Memory.read_cons, ih fun d hd => hm d (by simp [hd])]
      by_cases hq : c.1 = q
      · rw [if_pos hq, if_pos hq, if_neg (by omega)]
      · rw [if_neg hq, if_neg hq]

theorem Memory.mem_erase_ne {m : Memory} {k : Nat} {c : Host.Cell} (h : c ∈ Memory.erase m k) : c.1 ≠ k := by
  simpa using (List.mem_filter.mp h).2

/-- A write changes the byte at its key and no other. -/
@[simp] theorem Memory.read_write (m : Memory) (k q : Nat) (b : Byte) :
    Memory.read (Memory.write m k b) q = if q = k then b else Memory.read m q := by
  rw [Memory.write]
  split
  · rename_i hb; rw [Memory.read_erase, hb]
  · rw [Memory.read_insert _ _ _ _ fun c hc => Memory.mem_erase_ne hc, Memory.read_erase]
    split <;> rfl

@[simp] theorem Memory.read_writeWord (m : Memory) (k q : Nat) (v : Word) :
    Memory.read (Memory.writeWord m k v) q = if q = k + 1 then lo8 v else if q = k then hi8 v else Memory.read m q := by
  simp only [Memory.writeWord, Memory.read_write]

@[simp] theorem Memory.readWord_writeWord_same (m : Memory) (k : Nat) (v : Word) :
    Memory.readWord (Memory.writeWord m k v) k = v := by
  simp [Memory.readWord]

theorem Memory.readWord_writeWord_other (m : Memory) (k q : Nat) (v : Word) (h : q + 1 < k ∨ k + 1 < q) :
    Memory.readWord (Memory.writeWord m k v) q = Memory.readWord m q := by
  simp only [Memory.readWord, Memory.read_writeWord]
  rw [if_neg (by omega), if_neg (by omega), if_neg (by omega), if_neg (by omega)]

/-! ### The canonical form -/

theorem Memory.mem_insert {m : Memory} {k : Nat} {b : Byte} {c : Host.Cell} :
    c ∈ Memory.insert m k b ↔ c = (k, b) ∨ c ∈ m := by
  induction m with
  | nil => simp [Memory.insert]
  | cons d m ih =>
    rw [Memory.insert]
    split
    · simp
    · simp only [List.mem_cons, ih]; tauto

theorem Memory.wf_erase {m : Memory} (h : m.wf) (k : Nat) : (Memory.erase m k).wf :=
  ⟨h.1.filter _, fun c hc => h.2 c (List.mem_of_mem_filter hc)⟩

theorem Memory.wf_insert {m : Memory} (h : m.wf) {k : Nat} {b : Byte} (hb : b ≠ unlistedByte) (hk : ∀ c ∈ m, c.1 ≠ k) :
    (Memory.insert m k b).wf := by
  refine ⟨?_, fun c hc => ?_⟩
  · have hp := h.1
    clear h
    induction m with
    | nil => simp [Memory.insert]
    | cons c m ih =>
      have hcm := List.pairwise_cons.mp hp
      have hck : c.1 ≠ k := hk c (by simp)
      rw [Memory.insert]
      split
      · rename_i hlt
        refine List.pairwise_cons.mpr ⟨fun d hd => ?_, hp⟩
        rcases List.mem_cons.mp hd with rfl | hd
        · exact hlt
        · exact Nat.lt_trans hlt (hcm.1 d hd)
      · refine List.pairwise_cons.mpr ⟨fun d hd => ?_, ih (fun d hd => hk d (by simp [hd])) hcm.2⟩
        rcases Memory.mem_insert.mp hd with rfl | hd
        · show c.1 < k; omega
        · exact hcm.1 d hd
  · rcases Memory.mem_insert.mp hc with rfl | hc
    · exact hb
    · exact h.2 c hc

/-- A write keeps the canonical form. -/
theorem Memory.wf_write {m : Memory} (h : m.wf) (k : Nat) (b : Byte) : (Memory.write m k b).wf := by
  rw [Memory.write]
  split
  · exact Memory.wf_erase h k
  · exact Memory.wf_insert (Memory.wf_erase h k) ‹_› fun c hc => Memory.mem_erase_ne hc

theorem Memory.wf_writeWord {m : Memory} (h : m.wf) (k : Nat) (v : Word) : (Memory.writeWord m k v).wf :=
  Memory.wf_write (Memory.wf_write h _ _) _ _

theorem Memory.mem_write {m : Memory} {k : Nat} {b : Byte} {c : Host.Cell} (h : c ∈ Memory.write m k b) :
    c.1 = k ∨ c ∈ m := by
  rw [Memory.write] at h
  split at h
  · exact .inr (List.mem_of_mem_filter h)
  · rcases Memory.mem_insert.mp h with rfl | h
    · exact .inl rfl
    · exact .inr (List.mem_of_mem_filter h)

theorem Memory.mem_writeWord {m : Memory} {k : Nat} {v : Word} {c : Host.Cell} (h : c ∈ Memory.writeWord m k v) :
    c.1 = k ∨ c.1 = k + 1 ∨ c ∈ m := by
  rcases Memory.mem_write h with h | h
  · exact .inr (.inl h)
  · rcases Memory.mem_write h with h | h
    · exact .inl h
    · exact .inr (.inr h)

/-- Bytes written at neighbouring keys are there, and no other byte changed. -/
theorem Memory.read_writeBytes (m : Memory) (k q : Nat) (bs : List Byte) :
    Memory.read (Memory.writeBytes m k bs) q = if k ≤ q then bs.getD (q - k) (m.read q) else m.read q := by
  induction bs generalizing m k with
  | nil => simp [Memory.writeBytes]
  | cons b bs ih =>
    rw [Memory.writeBytes, ih, Memory.read_write]
    by_cases h : q = k
    · subst h; simp
    · by_cases h1 : k ≤ q
      · rw [if_pos (by omega), if_pos h1, if_neg h, show q - k = q - (k + 1) + 1 by omega, List.getD_cons_succ]
      · rw [if_neg (by omega), if_neg h1, if_neg h]

theorem Memory.wf_writeBytes {m : Memory} (h : m.wf) (k : Nat) (bs : List Byte) : (Memory.writeBytes m k bs).wf := by
  induction bs generalizing m k with
  | nil => exact h
  | cons b bs ih => exact ih (Memory.wf_write h k b) (k + 1)

theorem Memory.mem_writeBytes {m : Memory} {k : Nat} {bs : List Byte} {c : Host.Cell} (h : c ∈ Memory.writeBytes m k bs) :
    (k ≤ c.1 ∧ c.1 < k + bs.length) ∨ c ∈ m := by
  induction bs generalizing m k with
  | nil => exact .inr h
  | cons b bs ih =>
    simp only [List.length_cons]
    rcases ih h with h | h
    · exact .inl (by omega)
    · rcases Memory.mem_write h with h | h
      · exact .inl (by omega)
      · exact .inr h

/-- The bytes below the first key of a canonical list are unlisted. -/
theorem Memory.read_of_lt {m : Memory} {k : Nat} (h : ∀ c ∈ m, k < c.1) : Memory.read m k = unlistedByte := by
  induction m with
  | nil => rfl
  | cons c m ih =>
    have := h c (by simp)
    rw [Memory.read_cons, if_neg (by omega), ih fun d hd => h d (by simp [hd])]

/-- Canonical memories that read the same everywhere are the same data. -/
theorem Memory.eq_of_read {m n : Memory} (hm : m.wf) (hn : n.wf) (h : ∀ k, Memory.read m k = Memory.read n k) : m = n := by
  induction m generalizing n with
  | nil =>
    cases n with
    | nil => rfl
    | cons d n =>
      have := h d.1
      rw [Memory.read_cons, if_pos rfl] at this
      exact absurd this.symm (hn.2 d (by simp))
  | cons c m ih =>
    have hcm := List.pairwise_cons.mp hm.1
    cases n with
    | nil =>
      have := h c.1
      rw [Memory.read_cons, if_pos rfl] at this
      exact absurd this (hm.2 c (by simp))
    | cons d n =>
      have hdn := List.pairwise_cons.mp hn.1
      have hc := h c.1
      have hd := h d.1
      rw [Memory.read_cons, if_pos rfl, Memory.read_cons] at hc
      rw [Memory.read_cons, Memory.read_cons, if_pos rfl] at hd
      have hkey : c.1 = d.1 := by
        rcases Nat.lt_trichotomy c.1 d.1 with hlt | heq | hgt
        · rw [if_neg (by omega), Memory.read_of_lt fun e he => Nat.lt_trans hlt (hdn.1 e he)] at hc
          exact absurd hc (hm.2 c (by simp))
        · exact heq
        · rw [if_neg (by omega), Memory.read_of_lt fun e he => Nat.lt_trans hgt (hcm.1 e he)] at hd
          exact absurd hd.symm (hn.2 d (by simp))
      rw [if_pos hkey.symm] at hc
      have hcd : c = d := Prod.ext hkey hc
      subst hcd
      congr 1
      refine ih ⟨hcm.2, fun e he => hm.2 e (by simp [he])⟩ ⟨hdn.2, fun e he => hn.2 e (by simp [he])⟩ fun k => ?_
      by_cases hk : c.1 = k
      · rw [Memory.read_of_lt fun e he => hk ▸ hcm.1 e he, Memory.read_of_lt fun e he => hk ▸ hdn.1 e he]
      · have := h k
        rwa [Memory.read_cons, Memory.read_cons, if_neg hk, if_neg hk] at this

end Machine
end Sys2Proof
end

