-- ==== Sys2Proof/Laws/Device.lean ====
section
/-!
SUPPORT. The Device operations: what each does where a memory device serves it, and everything each can do at all.
-/

namespace Sys2Proof

open Machine

/-! ### Where a memory device serves the access -/

theorem Device.wordCell_eq_some {d : Device} {a : Word} {k : Nat} (h : d.wordCell a = some k) :
    ∃ id size o, d.resolve a = some (.memory id size, o) ∧ o.toNat + 1 < size ∧ k = cellKey id o.toNat := by
  simp only [Device.wordCell] at h
  split at h
  · split at h
    · exact ⟨_, _, _, ‹_›, ‹_›, (Option.some.inj h).symm⟩
    · cases h
  · cases h

theorem Device.byteCell_eq_some {d : Device} {a : Word} {k : Nat} (h : d.byteCell a = some k) :
    ∃ id size o, d.resolve a = some (.memory id size, o) ∧ o.toNat < size ∧ k = cellKey id o.toNat := by
  simp only [Device.byteCell] at h
  split at h
  · split at h
    · exact ⟨_, _, _, ‹_›, ‹_›, (Option.some.inj h).symm⟩
    · cases h
  · cases h

theorem Device.byteCell_of_wordCell {d : Device} {a : Word} {k : Nat} (h : d.wordCell a = some k) :
    d.byteCell a = some k := by
  obtain ⟨id, size, o, hr, ho, rfl⟩ := Device.wordCell_eq_some h
  simp [Device.byteCell, hr, show o.toNat < size by omega]

theorem Device.readU8_of_byteCell {d : Device} {a : Word} {k : Nat} (h : d.byteCell a = some k) (σ : DeviceState) :
    d.readU8 a σ = some (σ.mem.read k, σ) := by
  obtain ⟨id, size, o, hr, ho, rfl⟩ := Device.byteCell_eq_some h
  simp [Device.readU8, hr, Leaf.readU8, ho]

theorem Device.readU16_of_wordCell {d : Device} {a : Word} {k : Nat} (h : d.wordCell a = some k) (σ : DeviceState) :
    d.readU16 a σ = some (σ.mem.readWord k, σ) := by
  obtain ⟨id, size, o, hr, ho, rfl⟩ := Device.wordCell_eq_some h
  simp [Device.readU16, hr, Leaf.readU16, ho]

theorem Device.writeU8_of_byteCell {d : Device} {a : Word} {k : Nat} (h : d.byteCell a = some k) (v : Byte)
    (σ : DeviceState) : d.writeU8 a v σ = some { σ with mem := σ.mem.write k v } := by
  obtain ⟨id, size, o, hr, ho, rfl⟩ := Device.byteCell_eq_some h
  simp [Device.writeU8, hr, Leaf.writeU8, ho]

theorem Device.writeU16_of_wordCell {d : Device} {a : Word} {k : Nat} (h : d.wordCell a = some k) (v : Word)
    (σ : DeviceState) : d.writeU16 a v σ = some { σ with mem := σ.mem.writeWord k v } := by
  obtain ⟨id, size, o, hr, ho, rfl⟩ := Device.wordCell_eq_some h
  simp [Device.writeU16, hr, Leaf.writeU16, ho]

/-! ### Everything an access can do: a memory device served it, or a peripheral did -/

theorem Device.readU8_cases {d : Device} {a : Word} {σ σ' : DeviceState} {b : Byte} (h : d.readU8 a σ = some (b, σ')) :
    (∃ k, d.byteCell a = some k ∧ b = σ.mem.read k ∧ σ' = σ) ∨
    (∃ id o, d.resolve a = some (.peripheral id, o) ∧ σ' = { σ with trace := ⟨id, o, .read8 b⟩ :: σ.trace }) := by
  simp only [Device.readU8] at h
  split at h
  · rename_i l o hr
    cases l with
    | memory id size =>
      simp only [Leaf.readU8] at h
      split at h
      · obtain ⟨rfl, rfl⟩ := Prod.mk.inj (Option.some.inj h)
        exact .inl ⟨_, by simp [Device.byteCell, *], rfl, rfl⟩
      · cases h
    | peripheral id =>
      simp only [Leaf.readU8] at h
      split at h
      · obtain ⟨rfl, rfl⟩ := Prod.mk.inj (Option.some.inj h)
        exact .inr ⟨_, _, hr, rfl⟩
      · cases h
  · cases h

theorem Device.readU16_cases {d : Device} {a : Word} {σ σ' : DeviceState} {v : Word} (h : d.readU16 a σ = some (v, σ')) :
    (∃ k, d.wordCell a = some k ∧ v = σ.mem.readWord k ∧ σ' = σ) ∨
    (∃ id o, d.resolve a = some (.peripheral id, o) ∧ σ' = { σ with trace := ⟨id, o, .read16 v⟩ :: σ.trace }) := by
  simp only [Device.readU16] at h
  split at h
  · rename_i l o hr
    cases l with
    | memory id size =>
      simp only [Leaf.readU16] at h
      split at h
      · obtain ⟨rfl, rfl⟩ := Prod.mk.inj (Option.some.inj h)
        exact .inl ⟨_, by simp [Device.wordCell, *], rfl, rfl⟩
      · cases h
    | peripheral id =>
      simp only [Leaf.readU16] at h
      split at h
      · obtain ⟨rfl, rfl⟩ := Prod.mk.inj (Option.some.inj h)
        exact .inr ⟨_, _, hr, rfl⟩
      · cases h
  · cases h

theorem Device.writeU16_cases {d : Device} {a v : Word} {σ σ' : DeviceState} (h : d.writeU16 a v σ = some σ') :
    (∃ k, d.wordCell a = some k ∧ σ' = { σ with mem := σ.mem.writeWord k v }) ∨
    (d.wordCell a = none ∧
      ∃ id o, d.resolve a = some (.peripheral id, o) ∧ σ' = { σ with trace := ⟨id, o, .write16 v⟩ :: σ.trace }) := by
  simp only [Device.writeU16] at h
  split at h
  · rename_i l o hr
    cases l with
    | memory id size =>
      simp only [Leaf.writeU16] at h
      split at h
      · exact .inl ⟨_, by simp [Device.wordCell, *], (Option.some.inj h).symm⟩
      · cases h
    | peripheral id =>
      simp only [Leaf.writeU16] at h
      split at h
      · exact .inr ⟨by simp [Device.wordCell, hr], _, _, hr, (Option.some.inj h).symm⟩
      · cases h
  · cases h

/-- A read changes no byte. -/
theorem Device.readU8_mem {d : Device} {a : Word} {σ σ' : DeviceState} {b : Byte} (h : d.readU8 a σ = some (b, σ')) :
    σ'.mem = σ.mem := by
  rcases Device.readU8_cases h with ⟨_, _, _, rfl⟩ | ⟨_, _, _, rfl⟩ <;> rfl

theorem Device.readU16_mem {d : Device} {a : Word} {σ σ' : DeviceState} {v : Word} (h : d.readU16 a σ = some (v, σ')) :
    σ'.mem = σ.mem := by
  rcases Device.readU16_cases h with ⟨_, _, _, rfl⟩ | ⟨_, _, _, rfl⟩ <;> rfl

/-! ### Where the lookup can lead -/

mutual
theorem Device.resolve_mem : ∀ {d : Device} {a : Word} {id size : Nat} {o : Word},
    d.resolve a = some (.memory id size, o) → (id, size) ∈ d.memories
  | .memory _ _, _, _, _, _, h => by simp_all [Device.resolve, Device.memories]
  | .peripheral _, _, _, _, _, h => by simp [Device.resolve] at h
  | .mapper rs, _, _, _, _, h => by
    rw [Device.resolve] at h
    rw [Device.memories]
    exact Regions.resolve_mem h
theorem Regions.resolve_mem : ∀ {rs : Regions} {a : Word} {id size : Nat} {o : Word},
    rs.resolve a = some (.memory id size, o) → (id, size) ∈ rs.memories
  | .nil, _, _, _, _, h => by simp [Regions.resolve] at h
  | .cons d start last remap older, a, _, _, _, h => by
    rw [Regions.resolve] at h
    rw [Regions.memories, List.mem_append]
    split at h
    · exact .inl (Device.resolve_mem h)
    · exact .inr (Regions.resolve_mem h)
end

mutual
/-- Where no peripheral is mapped, no lookup leads to one. -/
theorem Device.resolve_memoryOnly : ∀ {d : Device} {a : Word} {id : Nat} {o : Word},
    memoryOnly d = true → d.resolve a ≠ some (.peripheral id, o)
  | .memory _ _, _, _, _, _ => by simp [Device.resolve]
  | .peripheral _, _, _, _, hm => by simp [memoryOnly] at hm
  | .mapper rs, _, _, _, hm => by
    rw [Device.resolve]
    exact Regions.resolve_memoryOnly (by simpa [memoryOnly] using hm)
theorem Regions.resolve_memoryOnly : ∀ {rs : Regions} {a : Word} {id : Nat} {o : Word},
    memoryOnlyRegions rs = true → rs.resolve a ≠ some (.peripheral id, o)
  | .nil, _, _, _, _ => by simp [Regions.resolve]
  | .cons d start last remap older, a, _, _, hm => by
    rw [memoryOnlyRegions, Bool.and_eq_true] at hm
    rw [Regions.resolve]
    split
    · exact Device.resolve_memoryOnly hm.1
    · exact Regions.resolve_memoryOnly hm.2
end

/-- Both bytes of a served word belong to a memory device of the tree. -/
theorem Device.backs_wordCell {d : Device} {a : Word} {k : Nat} (h : d.wordCell a = some k) :
    backs d k = true ∧ backs d (k + 1) = true := by
  obtain ⟨id, size, o, hr, ho, rfl⟩ := Device.wordCell_eq_some h
  have hm := Device.resolve_mem hr
  constructor <;>
  · refine List.any_eq_true.mpr ⟨_, hm, Bool.and_eq_true_iff.mpr ⟨decide_eq_true ?_, decide_eq_true ?_⟩⟩ <;>
    · simp only [cellKey]; omega

end Sys2Proof
end

