-- ==== Sys2Proof/Laws/Boot.lean ====
section
/-!
SUPPORT. What boot does: the size of a device of the tree, when an image fits, and the state an engine starts in.
-/

namespace Sys2Proof

open Machine

/-- A device with a byte is one of the memories of the tree, of that size. -/
theorem Device.memorySize_mem {d : Device} {id : Nat} (h : 0 < d.memorySize id) : (id, d.memorySize id) ∈ d.memories := by
  simp only [Device.memorySize] at h ⊢
  split
  · rename_i p hp
    have hid : p.1 = id := by simpa using List.find?_some hp
    rw [← hid]
    exact List.mem_of_find?_eq_some hp
  · rename_i hp
    rw [hp] at h
    simp at h

theorem Image.fits_iff {img : Image} {d : Device} :
    img.fits d = true ↔ img.bytes = [] ∨ img.offset.toNat + img.bytes.length ≤ d.memorySize img.primary := by
  simp [Image.fits]

namespace Machine

/-- A byte of a memory device of the tree, below its size, is backed. -/
theorem backs_cellKey {d : Device} {id o : Nat} (h : o < d.memorySize id) : backs d (cellKey id o) = true :=
  List.any_eq_true.mpr ⟨_, Device.memorySize_mem (Nat.zero_lt_of_lt h), 
    Bool.and_eq_true_iff.mpr ⟨decide_eq_true (by simp only [cellKey]; omega), decide_eq_true (by simp only [cellKey]; omega)⟩⟩

/-- Everything boot can do: it loads an image that fits and constructs the engine, or it does nothing. -/
theorem boot_eq_some {cfg : Config} {entry : Word} {img : Image} {initial : Memory} {s : State} :
    State.boot cfg entry img initial = some s ↔ img.fits cfg.addressSpace = true ∧
      s = State.construct cfg entry
        { mem := initial.writeBytes (cellKey img.primary img.offset.toNat) img.bytes, trace := [] } := by
  simp only [State.boot, loadImage]
  split <;> simp [*, eq_comm]

theorem boot_eq_none {cfg : Config} {entry : Word} {img : Image} {initial : Memory} :
    State.boot cfg entry img initial = none ↔ img.fits cfg.addressSpace = false := by
  simp [State.boot, loadImage]

end Machine

end Sys2Proof
end

