-- ==== Sys2Proof/Laws/Decode.lean ====
section
/-!
SUPPORT. Ordinals, operand fields and opcode bytes: what the decoder reads from what the encoder writes.
-/

namespace Sys2Proof

/-! ### Register ordinals (R21, R75) -/

theorem Reg.ordinal_lt (r : Reg) : r.ordinal < 12 := by cases r <;> decide

theorem Reg.ofOrdinal?_ordinal (r : Reg) : Reg.ofOrdinal? r.ordinal = some r := by cases r <;> rfl

theorem Reg.ofOrdinal?_eq_some {n : Nat} {r : Reg} : Reg.ofOrdinal? n = some r ↔ r.ordinal = n := by
  constructor
  · intro h
    rcases Nat.lt_or_ge n 12 with hn | hn
    · interval_cases n <;> simp only [Reg.ofOrdinal?, Option.some.injEq] at h <;> subst h <;> rfl
    · rw [Reg.ofOrdinal?] at h <;> first | omega | cases h
  · rintro rfl; exact Reg.ofOrdinal?_ordinal r

theorem Reg.ofOrdinal?_eq_none {n : Nat} : Reg.ofOrdinal? n = none ↔ 12 ≤ n := by
  constructor
  · intro h
    by_contra hn
    have hn : n < 12 := by omega
    interval_cases n <;> simp [Reg.ofOrdinal?] at h
  · intro hn
    rcases h : Reg.ofOrdinal? n with _ | r
    · rfl
    · have := Reg.ofOrdinal?_eq_some.mp h
      have := r.ordinal_lt
      omega

theorem regOfByte_ordinal (p : OrdinalPolicy) (r : Reg) : regOfByte p (BitVec.ofNat 8 r.ordinal) = some r := by
  cases p <;> cases r <;> rfl

/-- The registers a byte names under either policy (R75, R76). -/
theorem regOfByte_eq_some {p : OrdinalPolicy} {b : Byte} {r : Reg} :
    regOfByte p b = some r ↔
      (p = .fault ∧ r.ordinal = b.toNat) ∨ (p = .mask ∧ r.ordinal = b.toNat % 12) := by
  cases p <;> simp [regOfByte, Reg.ofOrdinal?_eq_some]

/-- InvalidRegister is raised under `fault` only, by a byte of 12 or more. -/
theorem regOfByte_eq_none {p : OrdinalPolicy} {b : Byte} : regOfByte p b = none ↔ p = .fault ∧ 12 ≤ b.toNat := by
  cases p
  · simp [regOfByte, Reg.ofOrdinal?_eq_none]
  · simp only [regOfByte, Reg.ofOrdinal?_eq_none, reduceCtorEq, false_and, iff_false]
    have := Nat.mod_lt b.toNat (show 0 < 12 by omega)
    omega

/-! ### Operand fields (R77, R82) -/

@[simp] theorem takeWord_encodeWord (v : Word) (rest : List Byte) : takeWord (encodeWord v ++ rest) = .ok (v, rest) := by
  simp [takeWord, encodeWord]

@[simp] theorem takeReg_encodeReg (p : OrdinalPolicy) (r : Reg) (rest : List Byte) :
    takeReg p (encodeReg r ++ rest) = .ok (r, rest) := by
  simp [takeReg, encodeReg, regOfByte_ordinal]

theorem takeWord_eq_ok {bs rest : List Byte} {v : Word} : takeWord bs = .ok (v, rest) ↔ bs = encodeWord v ++ rest := by
  constructor
  · intro h
    match bs, h with
    | h' :: l :: bs, h =>
      simp only [takeWord, Except.ok.injEq, Prod.mk.injEq] at h
      obtain ⟨rfl, rfl⟩ := h
      simp [encodeWord]
  · rintro rfl; simp

theorem takeReg_eq_ok {bs rest : List Byte} {r : Reg} :
    takeReg .fault bs = .ok (r, rest) ↔ bs = encodeReg r ++ rest := by
  constructor
  · intro h
    match bs, h with
    | b :: bs, h =>
      simp only [takeReg] at h
      split at h
      · rename_i q hq
        obtain ⟨rfl, rfl⟩ := Prod.mk.inj (Except.ok.inj h)
        rcases regOfByte_eq_some.mp hq with ⟨-, ho⟩ | ⟨hp, -⟩
        · simp only [encodeReg, List.cons_append, List.nil_append, List.cons.injEq, and_true]
          rw [ho, BitVec.ofNat_toNat, BitVec.setWidth_eq]
        · cases hp
      · cases h
  · rintro rfl; simp

/-! ### Opcode bytes (R79, R80) -/

theorem Mnemonic.mem_all (k : Mnemonic) : k ∈ Mnemonic.all := by cases k <;> decide

/-- What an admitted map satisfies (R79). -/
theorem OpcodeMap.wf_iff {m : OpcodeMap} :
    m.wf = true ↔ (Mnemonic.all.map m.byte).Nodup ∧ (∀ k, m.byte k ≠ 0x00) ∧ ∀ k, m.byte k ≠ 0xEE := by
  simp only [OpcodeMap.wf, Bool.and_eq_true, decide_eq_true_eq, Bool.not_eq_true', List.contains_eq_mem,
    decide_eq_false_iff_not, List.mem_map, not_exists, not_and, and_assoc]
  exact ⟨fun ⟨h0, hE, h⟩ => ⟨h, fun k => h0 k k.mem_all, fun k => hE k k.mem_all⟩,
    fun ⟨h, h0, hE⟩ => ⟨fun k _ => h0 k, fun k _ => hE k, h⟩⟩

theorem OpcodeMap.byte_injective {m : OpcodeMap} (h : m.wf = true) {k l : Mnemonic} (e : m.byte k = m.byte l) : k = l :=
  List.inj_on_of_nodup_map (OpcodeMap.wf_iff.mp h).1 k.mem_all l.mem_all e

theorem decodeOpcode_eq_instr {m : OpcodeMap} {b : Byte} {k : Mnemonic} (h : decodeOpcode m b = .instr k) :
    m.byte k = b := by
  simp only [decodeOpcode] at h
  split at h
  · rename_i l hl
    cases h
    simpa using List.find?_some hl
  · split at h <;> cases h

/-- Only 0x00 is the end-of-program marker. -/
theorem decodeOpcode_eq_endOfProgram {m : OpcodeMap} {b : Byte} (h : decodeOpcode m b = .endOfProgram) : b = 0x00 := by
  simp only [decodeOpcode] at h
  split at h
  · cases h
  · split at h
    · assumption
    · cases h

theorem decodeOpcode_of_not_opcode {m : OpcodeMap} {b : Byte} (h : ∀ k, m.byte k ≠ b) :
    decodeOpcode m b = if b = 0x00 then .endOfProgram else .unknown := by
  rw [decodeOpcode, List.find?_eq_none.mpr fun k _ => by simpa using h k]

/-- The opcode byte of a mnemonic selects it. -/
theorem decodeOpcode_byte {m : OpcodeMap} (h : m.wf = true) (k : Mnemonic) : decodeOpcode m (m.byte k) = .instr k := by
  rw [decodeOpcode]
  rcases hf : Mnemonic.all.find? (fun l => m.byte l == m.byte k) with _ | l
  · exact absurd (List.find?_eq_none.mp hf k k.mem_all) (by simp)
  · have hl : m.byte l = m.byte k := by simpa using List.find?_some hf
    rw [OpcodeMap.byte_injective h hl]

end Sys2Proof
end

