-- ==== Sys2Proof/Laws/Ops.lean ====
section
/-!
SUPPORT. The shared operations: for each, once, everything it does when it answers and when it raises. The meanings are one
call of them, so later proofs cite these and do not unfold them.
-/

namespace Sys2Proof.Machine

/-! ### Sequencing: the first error ends an operation (R11) -/

@[simp] theorem ok_bind {ε α β : Type} (a : α) (f : α → Except ε β) : ((Except.ok a : Except ε α) >>= f) = f a := rfl

@[simp] theorem error_bind {ε α β : Type} (e : ε) (f : α → Except ε β) :
    ((Except.error e : Except ε α) >>= f) = Except.error e := rfl

theorem bind_eq_ok {ε α β : Type} {x : Except ε α} {f : α → Except ε β} {b : β} :
    (x >>= f) = .ok b ↔ ∃ a, x = .ok a ∧ f a = .ok b := by
  cases x <;> simp

theorem bind_eq_error {ε α β : Type} {x : Except ε α} {f : α → Except ε β} {e : ε} :
    (x >>= f) = .error e ↔ x = .error e ∨ ∃ a, x = .ok a ∧ f a = .error e := by
  cases x <;> simp

@[simp] theorem finish_ok (s : State) : finish (.ok s) = .next s := rfl
@[simp] theorem finish_error (f : Fault) : finish (.error f) = .fault f := rfl

theorem finish_eq_next {x : Except Fault State} {t : State} : finish x = .next t ↔ x = .ok t := by
  cases x <;> simp [finish]

theorem finish_eq_fault {x : Except Fault State} {f : Fault} : finish x = .fault f ↔ x = .error f := by
  cases x <;> simp [finish]

theorem finish_ne_refused {x : Except Fault State} {q : Refusal} : finish x ≠ .refused q := by
  cases x <;> simp [finish]

/-! ### MemRead and MemWrite -/

theorem memRead8_eq_ok {acc : Access} {a : Word} {s t : State} {b : Byte} :
    memRead8 acc a s = .ok (b, t) ↔ ∃ σ, s.cfg.addressSpace.readU8 a s.space = some (b, σ) ∧ t = s.setSpace σ := by
  rw [memRead8]
  rcases s.cfg.addressSpace.readU8 a s.space with _ | ⟨b', σ⟩
  · simp
  · constructor
    · rintro ⟨⟩; exact ⟨_, rfl, rfl⟩
    · rintro ⟨_, ⟨⟩, rfl⟩; rfl

theorem memRead8_eq_error {acc : Access} {a : Word} {s : State} {f : Fault} :
    memRead8 acc a s = .error f ↔ s.cfg.addressSpace.readU8 a s.space = none ∧ f = .addressRange a acc := by
  rw [memRead8]
  rcases s.cfg.addressSpace.readU8 a s.space with _ | ⟨b', σ⟩ <;> simp [eq_comm]

theorem memRead16_eq_ok {acc : Access} {a : Word} {s t : State} {v : Word} :
    memRead16 acc a s = .ok (v, t) ↔ ∃ σ, s.cfg.addressSpace.readU16 a s.space = some (v, σ) ∧ t = s.setSpace σ := by
  rw [memRead16]
  rcases s.cfg.addressSpace.readU16 a s.space with _ | ⟨b', σ⟩
  · simp
  · constructor
    · rintro ⟨⟩; exact ⟨_, rfl, rfl⟩
    · rintro ⟨_, ⟨⟩, rfl⟩; rfl

theorem memRead16_eq_error {acc : Access} {a : Word} {s : State} {f : Fault} :
    memRead16 acc a s = .error f ↔ s.cfg.addressSpace.readU16 a s.space = none ∧ f = .addressRange a acc := by
  rw [memRead16]
  rcases s.cfg.addressSpace.readU16 a s.space with _ | ⟨b', σ⟩ <;> simp [eq_comm]

theorem memWrite16_eq_ok {a v : Word} {s t : State} :
    memWrite16 a v s = .ok t ↔ ∃ σ, s.cfg.addressSpace.writeU16 a v s.space = some σ ∧ t = s.setSpace σ := by
  rw [memWrite16]
  rcases s.cfg.addressSpace.writeU16 a v s.space with _ | σ
  · simp
  · constructor
    · rintro ⟨⟩; exact ⟨_, rfl, rfl⟩
    · rintro ⟨_, ⟨⟩, rfl⟩; rfl

theorem memWrite16_eq_error {a v : Word} {s : State} {f : Fault} :
    memWrite16 a v s = .error f ↔ s.cfg.addressSpace.writeU16 a v s.space = none ∧ f = .addressRange a .write16 := by
  rw [memWrite16]
  rcases s.cfg.addressSpace.writeU16 a v s.space with _ | σ <;> simp [eq_comm]

/-! ### push and pop -/

theorem push_eq_ok {v : Word} {s t : State} :
    push v s = .ok t ↔ ∃ σ, s.cfg.addressSpace.writeU16 (s.reg .sp) v s.space = some σ ∧
      t = ((s.setSpace σ).setReg .sp (s.reg .sp - 2)).setSfs (s.sfs + 2) := by
  simp only [push, bind_eq_ok, memWrite16_eq_ok, Except.ok.injEq]
  constructor
  · rintro ⟨_, ⟨σ, h, rfl⟩, rfl⟩; exact ⟨σ, h, rfl⟩
  · rintro ⟨σ, h, rfl⟩; exact ⟨_, ⟨σ, h, rfl⟩, rfl⟩

theorem push_eq_error {v : Word} {s : State} {f : Fault} :
    push v s = .error f ↔
      s.cfg.addressSpace.writeU16 (s.reg .sp) v s.space = none ∧ f = .addressRange (s.reg .sp) .write16 := by
  simp [push, bind_eq_error, memWrite16_eq_error]

theorem pop_eq_ok {s t : State} {v : Word} :
    pop s = .ok (v, t) ↔ ∃ σ, s.cfg.addressSpace.readU16 (s.reg .sp + 2) s.space = some (v, σ) ∧
      t = ((s.setReg .sp (s.reg .sp + 2)).setSfs (s.sfs - 2)).setSpace σ := by
  simp [pop, memRead16_eq_ok]

theorem pop_eq_error {s : State} {f : Fault} :
    pop s = .error f ↔
      s.cfg.addressSpace.readU16 (s.reg .sp + 2) s.space = none ∧ f = .addressRange (s.reg .sp + 2) .read16 := by
  simp [pop, memRead16_eq_error]

/-! ### Lists of pushes and pops

A run of `n` pushes leaves the state `pushed s n σ`, a run of `n` pops into no register the state `popped s n σ`. -/

/-- `s` after `n` pushes that left the address space in `σ`. -/
def pushed (s : State) (n : Nat) (σ : DeviceState) : State :=
  ((s.setSpace σ).setReg .sp (pushAddr s n)).setSfs (s.sfs + BitVec.ofNat 16 (2 * n))

/-- The address that pop number `j` from `s` reads, `j` from 0. -/
def popFrom (s : State) (j : Nat) : Word := s.reg .sp + 2 + BitVec.ofNat 16 (2 * j)

/-- `s` after `n` pops that left the address space in `σ`. -/
def popped (s : State) (n : Nat) (σ : DeviceState) : State :=
  ((s.setSpace σ).setReg .sp (s.reg .sp + BitVec.ofNat 16 (2 * n))).setSfs (s.sfs - BitVec.ofNat 16 (2 * n))

theorem ofNat_two_mul_succ (n : Nat) : BitVec.ofNat 16 (2 * (n + 1)) = 2 + BitVec.ofNat 16 (2 * n) := by
  rw [show 2 * (n + 1) = 2 + 2 * n by omega, BitVec.ofNat_add]; rfl

@[simp] theorem cfg_pushed (s : State) (n : Nat) (σ : DeviceState) : (pushed s n σ).cfg = s.cfg := rfl
@[simp] theorem space_pushed (s : State) (n : Nat) (σ : DeviceState) : (pushed s n σ).space = σ := rfl
@[simp] theorem status_pushed (s : State) (n : Nat) (σ : DeviceState) : (pushed s n σ).status = s.status := rfl
@[simp] theorem sfs_pushed (s : State) (n : Nat) (σ : DeviceState) :
    (pushed s n σ).sfs = s.sfs + BitVec.ofNat 16 (2 * n) := rfl
@[simp] theorem reg_pushed (s : State) (n : Nat) (σ : DeviceState) (r : Reg) :
    (pushed s n σ).reg r = if r = .sp then pushAddr s n else s.reg r := by simp [pushed]

@[simp] theorem cfg_popped (s : State) (n : Nat) (σ : DeviceState) : (popped s n σ).cfg = s.cfg := rfl
@[simp] theorem space_popped (s : State) (n : Nat) (σ : DeviceState) : (popped s n σ).space = σ := rfl
@[simp] theorem status_popped (s : State) (n : Nat) (σ : DeviceState) : (popped s n σ).status = s.status := rfl
@[simp] theorem sfs_popped (s : State) (n : Nat) (σ : DeviceState) :
    (popped s n σ).sfs = s.sfs - BitVec.ofNat 16 (2 * n) := rfl
@[simp] theorem reg_popped (s : State) (n : Nat) (σ : DeviceState) (r : Reg) :
    (popped s n σ).reg r = if r = .sp then s.reg .sp + BitVec.ofNat 16 (2 * n) else s.reg r := by simp [popped]

theorem pushed_zero (s : State) : pushed s 0 s.space = s := by
  refine State.ext_reg (fun r => ?_) ?_ rfl rfl rfl
  · by_cases h : r = .sp <;> simp [h, pushAddr]
  · simp

theorem popped_zero (s : State) : popped s 0 s.space = s := by
  refine State.ext_reg (fun r => ?_) ?_ rfl rfl rfl
  · by_cases h : r = .sp <;> simp [h]
  · simp

/-- One push is `pushed` by one. -/
theorem push_of_write {v : Word} {s : State} {σ : DeviceState}
    (h : s.cfg.addressSpace.writeU16 (s.reg .sp) v s.space = some σ) : push v s = .ok (pushed s 1 σ) :=
  push_eq_ok.mpr ⟨σ, h, by simp [pushed, pushAddr]⟩

theorem pushAddr_pushed (s : State) (n j : Nat) (σ : DeviceState) : pushAddr (pushed s n σ) j = pushAddr s (n + j) := by
  simp only [pushAddr, reg_pushed, if_true]
  rw [Nat.mul_add, BitVec.ofNat_add, sub_add_eq_sub_sub]

theorem pushed_pushed (s : State) (n k : Nat) (σ τ : DeviceState) : pushed (pushed s n σ) k τ = pushed s (n + k) τ := by
  refine State.ext_reg (fun r => ?_) ?_ rfl rfl rfl
  · by_cases h : r = .sp <;> simp [h, pushAddr_pushed]
  · simp [Nat.mul_add, BitVec.ofNat_add, BitVec.add_assoc]

/-- What a list of pushes does when every write is serviced. -/
theorem pushAll_of_writes {vs : List Word} {s : State} {σ : Nat → DeviceState} (h0 : σ 0 = s.space)
    (h : ServicedWrites s.cfg.addressSpace vs.length (pushAddr s) (fun j => vs.getD j 0) σ) :
    pushAll vs s = .ok (pushed s vs.length (σ vs.length)) := by
  induction vs generalizing s σ with
  | nil => rw [pushAll, List.length_nil, h0, pushed_zero]
  | cons v vs ih =>
    have h1 := h 0 (by simp)
    rw [h0] at h1
    rw [pushAll, push_of_write (by simpa [pushAddr] using h1), ok_bind]
    have hi := ih (s := pushed s 1 (σ 1)) (σ := fun j => σ (j + 1)) rfl fun j hj => by
      have := h (j + 1) (by simpa using hj)
      rw [pushAddr_pushed, Nat.add_comm 1 j]
      simpa using this
    rw [Nat.zero_add] at *
    rw [hi, pushed_pushed, List.length_cons, Nat.add_comm 1]

/-- What a list of pushes raises: the first write that is not serviced. -/
theorem pushAll_of_failed_write {vs : List Word} {s : State} {σ : Nat → DeviceState} {j : Nat} (h0 : σ 0 = s.space)
    (hj : j < vs.length) (h : ServicedWrites s.cfg.addressSpace j (pushAddr s) (fun j => vs.getD j 0) σ)
    (hf : s.cfg.addressSpace.writeU16 (pushAddr s j) (vs.getD j 0) (σ j) = none) :
    pushAll vs s = .error (.addressRange (pushAddr s j) .write16) := by
  induction vs generalizing s σ j with
  | nil => simp at hj
  | cons v vs ih =>
    cases j with
    | zero =>
      rw [pushAll, push_eq_error.mpr ⟨by simpa [pushAddr, h0] using hf, rfl⟩]
      simp [pushAddr]
    | succ j =>
      have h1 := h 0 (by simp)
      rw [h0] at h1
      rw [pushAll, push_of_write (by simpa [pushAddr] using h1), ok_bind]
      rw [ih (s := pushed s 1 (σ 1)) (σ := fun j => σ (j + 1)) (j := j) rfl (by simpa using hj)
        (fun l hl => by
          have := h (l + 1) (by omega)
          rw [pushAddr_pushed, Nat.add_comm 1 l]
          simpa using this)
        (by rw [pushAddr_pushed, Nat.add_comm 1 j]; simpa using hf),
        pushAddr_pushed, Nat.add_comm 1 j]

/-- A list of pushes that answers serviced every write, in order, and that is all it did. -/
theorem pushAll_eq_ok {vs : List Word} {s t : State} (h : pushAll vs s = .ok t) :
    ∃ σ : Nat → DeviceState, σ 0 = s.space ∧
      ServicedWrites s.cfg.addressSpace vs.length (pushAddr s) (fun j => vs.getD j 0) σ ∧
      t = pushed s vs.length (σ vs.length) := by
  induction vs generalizing s t with
  | nil =>
    rw [pushAll, Except.ok.injEq] at h
    exact ⟨fun _ => s.space, rfl, fun j hj => by simp at hj, by rw [← h, List.length_nil, pushed_zero]⟩
  | cons v vs ih =>
    rw [pushAll, bind_eq_ok] at h
    obtain ⟨u, hu, h⟩ := h
    obtain ⟨τ, hτ, -⟩ := push_eq_ok.mp hu
    rw [push_of_write hτ, Except.ok.injEq] at hu
    subst hu
    obtain ⟨σ, h0, hw, rfl⟩ := ih h
    refine ⟨fun j => if j = 0 then s.space else σ (j - 1), rfl, fun j hj => ?_, ?_⟩
    · cases j with
      | zero => simp only [space_pushed] at h0; simpa [pushAddr, h0] using hτ
      | succ j =>
        have := hw j (by simpa using hj)
        rw [pushAddr_pushed, Nat.add_comm 1 j] at this
        simpa using this
    · rw [pushed_pushed, List.length_cons, Nat.add_comm 1]; simp

/-- A list of pushes that raises raises a failed write at one of its addresses. -/
theorem pushAll_eq_error {vs : List Word} {s : State} {f : Fault} (h : pushAll vs s = .error f) :
    ∃ j, j < vs.length ∧ f = .addressRange (pushAddr s j) .write16 := by
  induction vs generalizing s with
  | nil => simp [pushAll] at h
  | cons v vs ih =>
    rw [pushAll, bind_eq_error] at h
    rcases h with h | ⟨u, hu, h⟩
    · exact ⟨0, by simp, by simpa [pushAddr] using (push_eq_error.mp h).2⟩
    · obtain ⟨τ, hτ, -⟩ := push_eq_ok.mp hu
      rw [push_of_write hτ, Except.ok.injEq] at hu
      subst hu
      obtain ⟨j, hj, rfl⟩ := ih h
      exact ⟨j + 1, by simpa using hj, by rw [pushAddr_pushed, Nat.add_comm 1 j]⟩

/-! ### Pops -/

theorem pop_of_read {s : State} {v : Word} {σ : DeviceState}
    (h : s.cfg.addressSpace.readU16 (s.reg .sp + 2) s.space = some (v, σ)) : pop s = .ok (v, popped s 1 σ) := by
  refine pop_eq_ok.mpr ⟨σ, h, ?_⟩
  refine State.ext_reg (fun r => ?_) rfl rfl rfl rfl
  by_cases hr : r = .sp <;> simp [hr]

theorem popFrom_popped (s : State) (n j : Nat) (σ : DeviceState) : popFrom (popped s n σ) j = popFrom s (n + j) := by
  simp only [popFrom, reg_popped, if_true]
  rw [Nat.mul_add, BitVec.ofNat_add]
  ac_rfl

theorem popped_popped (s : State) (n k : Nat) (σ τ : DeviceState) : popped (popped s n σ) k τ = popped s (n + k) τ := by
  refine State.ext_reg (fun r => ?_) ?_ rfl rfl rfl
  · by_cases h : r = .sp
    · simp [h, Nat.mul_add, BitVec.ofNat_add, BitVec.add_assoc]
    · simp [h]
  · simp [Nat.mul_add, BitVec.ofNat_add, sub_add_eq_sub_sub]

/-- `n` discarded pops when every read is serviced. -/
theorem popDiscard_of_reads {n : Nat} {s : State} {w : Nat → Word} {σ : Nat → DeviceState} (h0 : σ 0 = s.space)
    (h : ServicedReads s.cfg.addressSpace n (popFrom s) w σ) : popDiscard n s = .ok (popped s n (σ n)) := by
  induction n generalizing s w σ with
  | zero => rw [popDiscard, h0, popped_zero]
  | succ n ih =>
    have h1 := h 0 (by simp)
    rw [h0] at h1
    rw [popDiscard, pop_of_read (by simpa [popFrom] using h1), ok_bind]
    show popDiscard n (popped s 1 (σ (0 + 1))) = _
    rw [ih (w := fun j => w (j + 1)) (σ := fun j => σ (j + 1)) rfl fun j hj => by
      have := h (j + 1) (by omega)
      rw [popFrom_popped, Nat.add_comm 1 j]
      simpa using this]
    rw [popped_popped, Nat.add_comm 1]

theorem popDiscard_of_failed_read {n j : Nat} {s : State} {w : Nat → Word} {σ : Nat → DeviceState} (h0 : σ 0 = s.space)
    (hj : j < n) (h : ServicedReads s.cfg.addressSpace j (popFrom s) w σ)
    (hf : s.cfg.addressSpace.readU16 (popFrom s j) (σ j) = none) :
    popDiscard n s = .error (.addressRange (popFrom s j) .read16) := by
  induction n generalizing s w σ j with
  | zero => omega
  | succ n ih =>
    cases j with
    | zero =>
      rw [popDiscard, pop_eq_error.mpr ⟨by simpa [popFrom, h0] using hf, rfl⟩]
      simp [popFrom]
    | succ j =>
      have h1 := h 0 (by simp)
      rw [h0] at h1
      rw [popDiscard, pop_of_read (by simpa [popFrom] using h1), ok_bind]
      show popDiscard n (popped s 1 (σ (0 + 1))) = _
      rw [ih (w := fun j => w (j + 1)) (σ := fun j => σ (j + 1)) (j := j) rfl (by omega)
        (fun l hl => by
          have := h (l + 1) (by omega)
          rw [popFrom_popped, Nat.add_comm 1 l]
          simpa using this)
        (by rw [popFrom_popped, Nat.add_comm 1 j]; simpa using hf),
        popFrom_popped, Nat.add_comm 1 j]

/-- Discarded pops that answer serviced every read, and that is all they did. -/
theorem popDiscard_eq_ok {n : Nat} {s t : State} (h : popDiscard n s = .ok t) :
    ∃ (w : Nat → Word) (σ : Nat → DeviceState), σ 0 = s.space ∧
      ServicedReads s.cfg.addressSpace n (popFrom s) w σ ∧ t = popped s n (σ n) := by
  induction n generalizing s t with
  | zero =>
    rw [popDiscard, Except.ok.injEq] at h
    exact ⟨fun _ => 0, fun _ => s.space, rfl, fun j hj => by omega, by rw [← h, popped_zero]⟩
  | succ n ih =>
    rw [popDiscard, bind_eq_ok] at h
    obtain ⟨⟨v, u⟩, hu, h⟩ := h
    obtain ⟨τ, hτ, -⟩ := pop_eq_ok.mp hu
    rw [pop_of_read hτ, Except.ok.injEq, Prod.mk.injEq] at hu
    obtain ⟨-, rfl⟩ := hu
    obtain ⟨w, σ, h0, hw, rfl⟩ := ih h
    refine ⟨fun j => if j = 0 then v else w (j - 1), fun j => if j = 0 then s.space else σ (j - 1), rfl, fun j hj => ?_, ?_⟩
    · cases j with
      | zero => simp only [space_popped] at h0; simpa [popFrom, h0] using hτ
      | succ j =>
        have := hw j (by omega)
        rw [popFrom_popped, Nat.add_comm 1 j] at this
        simpa using this
    · rw [popped_popped, Nat.add_comm 1]; simp

theorem popDiscard_eq_error {n : Nat} {s : State} {f : Fault} (h : popDiscard n s = .error f) :
    ∃ j, j < n ∧ f = .addressRange (popFrom s j) .read16 := by
  induction n generalizing s with
  | zero => simp [popDiscard] at h
  | succ n ih =>
    rw [popDiscard, bind_eq_error] at h
    rcases h with h | ⟨⟨v, u⟩, hu, h⟩
    · exact ⟨0, by omega, by simpa [popFrom] using (pop_eq_error.mp h).2⟩
    · obtain ⟨τ, hτ, -⟩ := pop_eq_ok.mp hu
      rw [pop_of_read hτ, Except.ok.injEq, Prod.mk.injEq] at hu
      obtain ⟨-, rfl⟩ := hu
      obtain ⟨j, hj, rfl⟩ := ih h
      exact ⟨j + 1, by omega, by rw [popFrom_popped, Nat.add_comm 1 j]⟩

end Sys2Proof.Machine
end

