-- ==== Sys2Proof/Laws/Frames.lean ====
section
/-!
SUPPORT. push_state and pop_state: what each does when every access is serviced, what each raises at the first that is not,
and that these are the only two cases.
-/

namespace Sys2Proof.Machine

/-! ### Sequences of accesses -/

theorem ServicedReads.drop {d : Device} {m n : Nat} {a w : Nat → Word} {σ : Nat → DeviceState}
    (h : ServicedReads d (m + n) a w σ) :
    ServicedReads d n (fun j => a (m + j)) (fun j => w (m + j)) (fun j => σ (m + j)) :=
  fun j hj => h (m + j) (by omega)

theorem ServicedReads.take {d : Device} {m n : Nat} {a w : Nat → Word} {σ : Nat → DeviceState}
    (h : ServicedReads d n a w σ) (hmn : m ≤ n) : ServicedReads d m a w σ :=
  fun j hj => h j (by omega)

/-- The states of the address space along the reads at `a 0, a 1, …`, as far as they are serviced. -/
def readStates (d : Device) (a : Nat → Word) (σ₀ : DeviceState) : Nat → DeviceState
  | 0 => σ₀
  | j + 1 =>
    match d.readU16 (a j) (readStates d a σ₀ j) with
    | some (_, τ) => τ
    | none => readStates d a σ₀ j

/-- The words those reads answer. -/
def readWords (d : Device) (a : Nat → Word) (σ₀ : DeviceState) (j : Nat) : Word :=
  match d.readU16 (a j) (readStates d a σ₀ j) with
  | some (v, _) => v
  | none => 0

/-- Either `n` reads are serviced, or a first one is not. -/
theorem reads_serviced_or_fail (d : Device) (a : Nat → Word) (σ₀ : DeviceState) (n : Nat) :
    ServicedReads d n a (readWords d a σ₀) (readStates d a σ₀) ∨
    ∃ j, j < n ∧ ServicedReads d j a (readWords d a σ₀) (readStates d a σ₀) ∧
      d.readU16 (a j) (readStates d a σ₀ j) = none := by
  induction n with
  | zero => exact .inl fun j hj => by omega
  | succ n ih =>
    rcases ih with ih | ⟨j, hj, h⟩
    · rcases hr : d.readU16 (a n) (readStates d a σ₀ n) with _ | ⟨v, τ⟩
      · exact .inr ⟨n, by omega, ih, hr⟩
      · refine .inl fun j hj => ?_
        rcases Nat.lt_succ_iff_lt_or_eq.mp hj with hj | rfl
        · exact ih j hj
        · simp [readWords, readStates, hr]
    · exact .inr ⟨j, by omega, h⟩

/-! ### push_state (R120) -/

/-- The ten words of a frame, in the order they are pushed. -/
def frameWords (s : State) : List Word :=
  [s.reg .r1, s.reg .r2, s.reg .r3, s.reg .r4, s.reg .r5, s.reg .r6, s.reg .r7, s.reg .r8, s.reg .ip, s.sfs + 20]

theorem frameWords_getD (s : State) {j : Nat} (hj : j < 10) : (frameWords s).getD j 0 = frameWord s j := by
  match j, hj with
  | 0, _ | 1, _ | 2, _ | 3, _ | 4, _ | 5, _ | 6, _ | 7, _ | 8, _ | 9, _ => rfl

/-- `s` after its frame has been pushed, the address space left in `σ`. -/
def framed (s : State) (σ : DeviceState) : State :=
  (((s.setSpace σ).setReg .sp (s.reg .sp - 20)).setReg .fp (s.reg .sp - 20)).setSfs 0

@[simp] theorem cfg_framed (s : State) (σ : DeviceState) : (framed s σ).cfg = s.cfg := rfl
@[simp] theorem space_framed (s : State) (σ : DeviceState) : (framed s σ).space = σ := rfl
@[simp] theorem status_framed (s : State) (σ : DeviceState) : (framed s σ).status = s.status := rfl
@[simp] theorem sfs_framed (s : State) (σ : DeviceState) : (framed s σ).sfs = 0 := rfl
@[simp] theorem reg_framed (s : State) (σ : DeviceState) (r : Reg) :
    (framed s σ).reg r = if r = .sp ∨ r = .fp then s.reg .sp - 20 else s.reg r := by
  cases r <;> simp [framed]

theorem pushAll_append (vs : List Word) (v : Word) (s : State) :
    pushAll (vs ++ [v]) s = pushAll vs s >>= push v := by
  induction vs generalizing s with
  | nil =>
    simp only [List.nil_append, pushAll, ok_bind]
    cases push v s <;> rfl
  | cons u vs ih =>
    simp only [List.cons_append, pushAll]
    cases push u s with
    | error e => rfl
    | ok t => simp [ih]

/-- push_state is ten pushes, then FP and sfs. -/
theorem pushState_eq (s : State) :
    pushState s = pushAll (frameWords s) s >>= fun t => .ok ((t.setReg .fp (t.reg .sp)).setSfs 0) := by
  rw [show frameWords s = [s.reg .r1, s.reg .r2, s.reg .r3, s.reg .r4, s.reg .r5, s.reg .r6, s.reg .r7, s.reg .r8,
    s.reg .ip] ++ [s.sfs + 20] from rfl, pushAll_append, pushState]
  generalize hvs : [s.reg .r1, s.reg .r2, s.reg .r3, s.reg .r4, s.reg .r5, s.reg .r6, s.reg .r7, s.reg .r8, s.reg .ip] = vs
  cases h : pushAll vs s with
  | error e => rfl
  | ok t =>
    obtain ⟨σ, -, -, rfl⟩ := pushAll_eq_ok h
    have hlen : vs.length = 9 := by rw [← hvs]; rfl
    have hsfs : (pushed s vs.length (σ vs.length)).sfs + 2 = s.sfs + 20 := by
      rw [sfs_pushed, hlen, BitVec.add_assoc]; rfl
    simp only [ok_bind, hsfs]

theorem pushState_of_writes {s : State} {σ : Nat → DeviceState} (h0 : σ 0 = s.space)
    (h : ServicedWrites s.cfg.addressSpace 10 (pushAddr s) (frameWord s) σ) : pushState s = .ok (framed s (σ 10)) := by
  have hw : ServicedWrites s.cfg.addressSpace (frameWords s).length (pushAddr s) (fun j => (frameWords s).getD j 0) σ :=
    fun j hj => by
      have h10 : j < 10 := hj
      simpa only [frameWords_getD s h10] using h j h10
  rw [pushState_eq, pushAll_of_writes h0 hw, ok_bind]
  refine congrArg _ (State.ext_reg (fun r => ?_) rfl rfl rfl rfl)
  cases r <;> simp [pushAddr, frameWords]

theorem pushState_of_failed_write {s : State} {σ : Nat → DeviceState} {j : Nat} (h0 : σ 0 = s.space) (hj : j < 10)
    (h : ServicedWrites s.cfg.addressSpace j (pushAddr s) (frameWord s) σ)
    (hf : s.cfg.addressSpace.writeU16 (pushAddr s j) (frameWord s j) (σ j) = none) :
    pushState s = .error (.addressRange (pushAddr s j) .write16) := by
  rw [pushState_eq, pushAll_of_failed_write h0 (show j < (frameWords s).length from hj)
    (fun l hl => by simpa only [frameWords_getD s (show l < 10 by omega)] using h l hl) (by rw [frameWords_getD s hj]; exact hf)]
  rfl

/-- A push_state that answers serviced its ten writes, and that is all it did. -/
theorem pushState_eq_ok {s t : State} (h : pushState s = .ok t) :
    ∃ σ : Nat → DeviceState, σ 0 = s.space ∧ ServicedWrites s.cfg.addressSpace 10 (pushAddr s) (frameWord s) σ ∧
      t = framed s (σ 10) := by
  have h' := h
  rw [pushState_eq, bind_eq_ok] at h'
  obtain ⟨u, hu, -⟩ := h'
  obtain ⟨σ, h0, hw, -⟩ := pushAll_eq_ok hu
  have hs : ServicedWrites s.cfg.addressSpace 10 (pushAddr s) (frameWord s) σ := fun j hj => by
    rw [← frameWords_getD s hj]; exact hw j hj
  rw [pushState_of_writes h0 hs, Except.ok.injEq] at h
  exact ⟨σ, h0, hs, h.symm⟩

theorem pushState_eq_error {s : State} {f : Fault} (h : pushState s = .error f) :
    ∃ j, j < 10 ∧ f = .addressRange (pushAddr s j) .write16 := by
  rw [pushState_eq, bind_eq_error] at h
  rcases h with h | ⟨_, -, h⟩
  · exact pushAll_eq_error h
  · cases h

/-! ### pop_state (R121) -/

theorem popped_setReg {s : State} {r : Reg} (hr : r ≠ .sp) (v : Word) (n : Nat) (σ : DeviceState) :
    popped (s.setReg r v) n σ = (popped s n σ).setReg r v := by
  refine State.ext_reg (fun q => ?_) rfl rfl rfl rfl
  by_cases hq : q = .sp
  · subst hq; simp [hr.symm]
  · simp [hq]

/-- `s` with the words `w 0, w 1, …` in the registers of a list. -/
def loaded : State → List Reg → (Nat → Word) → State
  | s, [], _ => s
  | s, r :: rs, w => loaded (s.setReg r (w 0)) rs fun j => w (j + 1)

theorem popFrom_setReg {s : State} {r : Reg} (hr : r ≠ .sp) (v : Word) : popFrom (s.setReg r v) = popFrom s := by
  funext j; simp [popFrom, hr.symm]

theorem popInto_of_reads {rs : List Reg} {s : State} {w : Nat → Word} {σ : Nat → DeviceState} (hsp : .sp ∉ rs)
    (h0 : σ 0 = s.space) (h : ServicedReads s.cfg.addressSpace rs.length (popFrom s) w σ) :
    popInto rs s = .ok (loaded (popped s rs.length (σ rs.length)) rs w) := by
  induction rs generalizing s w σ with
  | nil => rw [popInto, List.length_nil, h0, popped_zero, loaded]
  | cons r rs ih =>
    have hr : r ≠ .sp := fun e => hsp (by simp [e])
    have h1 := h 0 (by simp)
    rw [h0] at h1
    rw [popInto, pop_of_read (by simpa [popFrom] using h1), ok_bind]
    show popInto rs ((popped s 1 (σ (0 + 1))).setReg r (w 0)) = _
    rw [ih (s := (popped s 1 (σ (0 + 1))).setReg r (w 0)) (w := fun j => w (j + 1)) (σ := fun j => σ (j + 1))
      (fun e => hsp (by simp [e])) rfl fun j hj => by
        have := h (j + 1) (by simpa using hj)
        rw [popFrom_setReg hr, popFrom_popped, Nat.add_comm 1 j]
        simpa using this,
      popped_setReg hr, popped_popped, List.length_cons, Nat.add_comm 1, loaded]

theorem popInto_of_failed_read {rs : List Reg} {s : State} {w : Nat → Word} {σ : Nat → DeviceState} {j : Nat}
    (hsp : .sp ∉ rs) (h0 : σ 0 = s.space) (hj : j < rs.length)
    (h : ServicedReads s.cfg.addressSpace j (popFrom s) w σ)
    (hf : s.cfg.addressSpace.readU16 (popFrom s j) (σ j) = none) :
    popInto rs s = .error (.addressRange (popFrom s j) .read16) := by
  induction rs generalizing s w σ j with
  | nil => simp at hj
  | cons r rs ih =>
    have hr : r ≠ .sp := fun e => hsp (by simp [e])
    cases j with
    | zero =>
      rw [popInto, pop_eq_error.mpr ⟨by simpa [popFrom, h0] using hf, rfl⟩]
      simp [popFrom]
    | succ j =>
      have h1 := h 0 (by simp)
      rw [h0] at h1
      rw [popInto, pop_of_read (by simpa [popFrom] using h1), ok_bind]
      show popInto rs ((popped s 1 (σ (0 + 1))).setReg r (w 0)) = _
      rw [ih (s := (popped s 1 (σ (0 + 1))).setReg r (w 0)) (w := fun j => w (j + 1)) (σ := fun j => σ (j + 1)) (j := j)
        (fun e => hsp (by simp [e])) rfl (by simpa using hj)
        (fun l hl => by
          have := h (l + 1) (by omega)
          rw [popFrom_setReg hr, popFrom_popped, Nat.add_comm 1 l]
          simpa using this)
        (by rw [popFrom_setReg hr, popFrom_popped, Nat.add_comm 1 j]; simpa using hf),
        popFrom_setReg hr, popFrom_popped, Nat.add_comm 1 j]

theorem cfg_loaded (s : State) (rs : List Reg) (w : Nat → Word) : (loaded s rs w).cfg = s.cfg := by
  induction rs generalizing s w with
  | nil => rfl
  | cons r rs ih => rw [loaded, ih]; rfl

theorem space_loaded (s : State) (rs : List Reg) (w : Nat → Word) : (loaded s rs w).space = s.space := by
  induction rs generalizing s w with
  | nil => rfl
  | cons r rs ih => rw [loaded, ih]; rfl

theorem reg_loaded_of_not_mem {rs : List Reg} {q : Reg} (h : q ∉ rs) (s : State) (w : Nat → Word) :
    (loaded s rs w).reg q = s.reg q := by
  induction rs generalizing s w with
  | nil => rfl
  | cons r rs ih =>
    have hr : q ≠ r := fun e => h (by simp [e])
    rw [loaded, ih fun e => h (by simp [e])]
    simp [hr]

/-- The registers that a return pops into, in order (R121). -/
abbrev returnRegs : List Reg := [.ip, .r8, .r7, .r6, .r5, .r4, .r3, .r2, .r1]

/-- `s` after the eleven frame words `w 0 … w 10` of a return have been popped, the address space left in `σ`. -/
def unframed (s : State) (w : Nat → Word) (σ : DeviceState) : State where
  regs := { ip := w 1, acc := s.reg .acc, r1 := w 9, r2 := w 8, r3 := w 7, r4 := w 6, r5 := w 5, r6 := w 4, r7 := w 3,
            r8 := w 2, sp := s.reg .fp + 22, fp := s.reg .fp }
  sfs := w 0 - 20
  space := σ
  cfg := s.cfg
  status := s.status

/-- `s` after a return that popped the words `w 0, w 1, …` and left the address space in `σ`. -/
def returned (s : State) (w : Nat → Word) (σ : DeviceState) : State where
  regs := { ip := w 1, acc := s.reg .acc, r1 := w 9, r2 := w 8, r3 := w 7, r4 := w 6, r5 := w 5, r6 := w 4, r7 := w 3,
            r8 := w 2, sp := s.reg .fp + 22 + 2 * w 10, fp := s.reg .fp + w 0 }
  sfs := w 0 - 20 - 2 * w 10
  space := σ
  cfg := s.cfg
  status := s.status

theorem ofNat_two_mul_toNat (n : Word) : BitVec.ofNat 16 (2 * n.toNat) = 2 * n := by
  rw [BitVec.ofNat_mul, BitVec.ofNat_toNat, BitVec.setWidth_eq]; rfl

/-- The state after the saved frame size of a return has been popped. -/
def sizePopped (s : State) (v : Word) (σ : DeviceState) : State :=
  (popped (s.setReg .sp (s.reg .fp)) 1 σ).setSfs v

theorem popFrom_sizePopped (s : State) (v : Word) (σ : DeviceState) : popFrom (sizePopped s v σ) = fun j => popAddr s (1 + j) := by
  funext j
  simp only [popFrom, popAddr, sizePopped, reg_setReg, reg_popped, reg_setSfs, if_true, Nat.mul_add, BitVec.ofNat_add,
    show BitVec.ofNat 16 (2 * 1) = 2 from rfl]
  ac_rfl

theorem unframed_eq (s : State) (w : Nat → Word) (σ₁ σ₂ σ : DeviceState) :
    popped (loaded (popped (sizePopped s (w 0) σ₁) 9 σ₂) returnRegs fun j => w (1 + j)) 1 σ = unframed s w σ := by
  refine State.ext_reg (fun r => ?_) ?_ rfl rfl rfl
  · rw [reg_popped]
    by_cases hr : r = .sp
    · subst hr
      rw [if_pos rfl, reg_loaded_of_not_mem (by decide)]
      simp only [sizePopped, reg_popped, reg_setSfs, reg_setReg, if_true, BitVec.add_assoc]
      rfl
    · rw [if_neg hr]
      cases r <;> first | (exact absurd rfl hr) | rfl
  · show w 0 - BitVec.ofNat 16 (2 * 9) - BitVec.ofNat 16 (2 * 1) = w 0 - 20
    rw [← sub_add_eq_sub_sub]; rfl

/-- The eleven pops of a return, when they are serviced. -/
theorem popState_eq_discard {s : State} {w : Nat → Word} {σ : Nat → DeviceState} (h0 : σ 0 = s.space)
    (h : ServicedReads s.cfg.addressSpace 11 (popAddr s) w σ) :
    popState s = popDiscard (w 10).toNat (unframed s w (σ 11)) >>= fun t => .ok (t.setReg .fp (s.reg .fp + w 0)) := by
  have h1 := h 0 (by omega)
  rw [h0] at h1
  have hp : pop (s.setReg .sp (s.reg .fp)) = .ok (w 0, popped (s.setReg .sp (s.reg .fp)) 1 (σ 1)) :=
    pop_of_read (by simpa [popAddr] using h1)
  have hi := popInto_of_reads (rs := returnRegs) (s := sizePopped s (w 0) (σ 1)) (w := fun j => w (1 + j))
    (σ := fun j => σ (1 + j)) (by decide) rfl fun j hj => by
      rw [popFrom_sizePopped]
      have hj : j < 9 := hj
      exact h (1 + j) (by omega)
  have hc := pop_of_read (s := loaded (popped (sizePopped s (w 0) (σ 1)) 9 (σ 10)) returnRegs fun j => w (1 + j))
    (v := w 10) (σ := σ 11) (by
      rw [cfg_loaded, space_loaded, reg_loaded_of_not_mem (by decide)]
      have := h 10 (by omega)
      rw [popAddr] at this
      have ha : (popped (sizePopped s (w 0) (σ 1)) 9 (σ 10)).reg .sp + 2 = s.reg .fp + 2 + BitVec.ofNat 16 (2 * 10) := by
        simp only [sizePopped, reg_popped, reg_setSfs, reg_setReg, if_true, BitVec.add_assoc]
        rfl
      rw [ha]; exact this)
  rw [unframed_eq] at hc
  rw [popState]
  simp only [hp, ok_bind]
  rw [show (popped (s.setReg .sp (s.reg .fp)) 1 (σ 1)).setSfs (w 0) = sizePopped s (w 0) (σ 1) from rfl, hi]
  simp only [ok_bind]
  rw [show loaded (popped (sizePopped s (w 0) (σ 1)) returnRegs.length (σ (1 + returnRegs.length))) returnRegs
    (fun j => w (1 + j)) = loaded (popped (sizePopped s (w 0) (σ 1)) 9 (σ 10)) returnRegs (fun j => w (1 + j)) from rfl,
    hc]
  simp only [ok_bind]

theorem popFrom_unframed (s : State) (w : Nat → Word) (σ : DeviceState) :
    popFrom (unframed s w σ) = fun j => popAddr s (11 + j) := by
  funext j
  show s.reg .fp + 22 + 2 + BitVec.ofNat 16 (2 * j) = s.reg .fp + 2 + BitVec.ofNat 16 (2 * (11 + j))
  rw [Nat.mul_add, BitVec.ofNat_add, show BitVec.ofNat 16 (2 * 11) = 22 from rfl]
  ac_rfl

/-- What a return does when its 11 + n reads are serviced. -/
theorem popState_of_reads {s : State} {w : Nat → Word} {σ : Nat → DeviceState} (h0 : σ 0 = s.space)
    (h : ServicedReads s.cfg.addressSpace (11 + (w 10).toNat) (popAddr s) w σ) :
    popState s = .ok (returned s w (σ (11 + (w 10).toNat))) := by
  rw [popState_eq_discard h0 (h.take (by omega)),
    popDiscard_of_reads (w := fun j => w (11 + j)) (σ := fun j => σ (11 + j)) rfl (by rw [popFrom_unframed]; exact h.drop),
    ok_bind]
  refine congrArg _ (State.ext_reg (fun r => ?_) ?_ rfl rfl rfl)
  · rw [reg_setReg, reg_popped, ofNat_two_mul_toNat]
    cases r <;> rfl
  · show w 0 - 20 - BitVec.ofNat 16 (2 * (w 10).toNat) = w 0 - 20 - 2 * w 10
    rw [ofNat_two_mul_toNat]

/-- What a return raises: its first read that is not serviced. -/
theorem popState_of_failed_read {s : State} {w : Nat → Word} {σ : Nat → DeviceState} {j : Nat} (h0 : σ 0 = s.space)
    (hj : j < 11 + (w 10).toNat) (h : ServicedReads s.cfg.addressSpace j (popAddr s) w σ)
    (hf : s.cfg.addressSpace.readU16 (popAddr s j) (σ j) = none) :
    popState s = .error (.addressRange (popAddr s j) .read16) := by
  by_cases h11 : 11 ≤ j
  · obtain ⟨k, rfl⟩ := Nat.exists_eq_add_of_le h11
    rw [popState_eq_discard h0 (h.take h11),
      popDiscard_of_failed_read (w := fun j => w (11 + j)) (σ := fun j => σ (11 + j)) (j := k) rfl (by omega)
        (by rw [popFrom_unframed]; exact h.drop) (by rw [popFrom_unframed]; exact hf),
      popFrom_unframed]
    rfl
  · cases j with
    | zero =>
      rw [popState, pop_eq_error.mpr ⟨by simpa [popAddr, h0] using hf, rfl⟩]
      simp [popAddr]
    | succ j =>
      have h1 := h 0 (by omega)
      rw [h0] at h1
      have hp : pop (s.setReg .sp (s.reg .fp)) = .ok (w 0, popped (s.setReg .sp (s.reg .fp)) 1 (σ 1)) :=
        pop_of_read (by simpa [popAddr] using h1)
      rw [popState]
      simp only [hp, ok_bind]
      rw [show (popped (s.setReg .sp (s.reg .fp)) 1 (σ 1)).setSfs (w 0) = sizePopped s (w 0) (σ 1) from rfl]
      rw [Nat.add_comm] at h hf ⊢
      by_cases h9 : j < 9
      · rw [popInto_of_failed_read (rs := returnRegs) (w := fun j => w (1 + j)) (σ := fun j => σ (1 + j)) (j := j)
          (by decide) rfl h9 (by rw [popFrom_sizePopped]; exact h.drop) (by rw [popFrom_sizePopped]; exact hf),
          popFrom_sizePopped]
        rfl
      · obtain rfl : j = 9 := by omega
        rw [popInto_of_reads (rs := returnRegs) (w := fun j => w (1 + j)) (σ := fun j => σ (1 + j)) (by decide) rfl
          (by rw [popFrom_sizePopped]; exact h.drop)]
        simp only [ok_bind]
        rw [pop_eq_error.mpr ⟨?_, rfl⟩, reg_loaded_of_not_mem (by decide)]
        · simp only [error_bind, popAddr, sizePopped, reg_popped, reg_setSfs, reg_setReg, if_true, BitVec.add_assoc]
          rfl
        · rw [cfg_loaded, space_loaded, reg_loaded_of_not_mem (by decide)]
          have ha : (popped (sizePopped s (w 0) (σ 1)) 9 (σ 10)).reg .sp + 2 = popAddr s 10 := by
            simp only [popAddr, sizePopped, reg_popped, reg_setSfs, reg_setReg, if_true, BitVec.add_assoc]
            rfl
          exact (congrArg (fun a => s.cfg.addressSpace.readU16 a (σ 10)) ha).trans hf

/-- These are the only two cases: the words and states are those of the reads at FP + 2 upward. -/
theorem popState_cases (s : State) :
    ∃ (w : Nat → Word) (σ : Nat → DeviceState), σ 0 = s.space ∧
      ((ServicedReads s.cfg.addressSpace (11 + (w 10).toNat) (popAddr s) w σ ∧
        popState s = .ok (returned s w (σ (11 + (w 10).toNat)))) ∨
      ∃ j, j < 11 + 65535 ∧ popState s = .error (.addressRange (popAddr s j) .read16)) := by
  refine ⟨readWords s.cfg.addressSpace (popAddr s) s.space, readStates s.cfg.addressSpace (popAddr s) s.space, rfl, ?_⟩
  rcases reads_serviced_or_fail s.cfg.addressSpace (popAddr s) s.space
    (11 + (readWords s.cfg.addressSpace (popAddr s) s.space 10).toNat) with h | ⟨j, hj, h, hf⟩
  · exact .inl ⟨h, popState_of_reads rfl h⟩
  · exact .inr ⟨j, by omega, popState_of_failed_read rfl hj h hf⟩

theorem popState_eq_ok {s t : State} (h : popState s = .ok t) :
    ∃ (w : Nat → Word) (σ : Nat → DeviceState), σ 0 = s.space ∧
      ServicedReads s.cfg.addressSpace (11 + (w 10).toNat) (popAddr s) w σ ∧
      t = returned s w (σ (11 + (w 10).toNat)) := by
  obtain ⟨w, σ, h0, ⟨hr, hk⟩ | ⟨j, -, hk⟩⟩ := popState_cases s
  · rw [hk, Except.ok.injEq] at h
    exact ⟨w, σ, h0, hr, h.symm⟩
  · rw [hk] at h; cases h

theorem popState_eq_error {s : State} {f : Fault} (h : popState s = .error f) :
    ∃ j, j < 11 + 65535 ∧ f = .addressRange (popAddr s j) .read16 := by
  obtain ⟨w, σ, h0, ⟨-, hk⟩ | ⟨j, hj, hk⟩⟩ := popState_cases s
  · rw [hk] at h; cases h
  · rw [hk, Except.error.injEq] at h
    exact ⟨j, hj, h.symm⟩

/-! ### Sequences that memory devices serve -/

/-- The reads of words that memory devices back change nothing and answer what the memory holds. -/
theorem servicedReads_of_wordCells {d : Device} {n : Nat} {a : Nat → Word} {cell : Nat → Nat} (σ : DeviceState)
    (h : ∀ j, j < n → d.wordCell (a j) = some (cell j)) :
    ServicedReads d n a (fun j => σ.mem.readWord (cell j)) (fun _ => σ) :=
  fun j hj => Device.readU16_of_wordCell (h j hj) σ

/-- The states of the address space along writes to the words at keys `cell 0, cell 1, …`. -/
def cellStates (cell : Nat → Nat) (v : Nat → Word) (σ : DeviceState) : Nat → DeviceState
  | 0 => σ
  | j + 1 => { cellStates cell v σ j with mem := (cellStates cell v σ j).mem.writeWord (cell j) (v j) }

theorem servicedWrites_of_wordCells {d : Device} {n : Nat} {a v : Nat → Word} {cell : Nat → Nat} (σ : DeviceState)
    (h : ∀ j, j < n → d.wordCell (a j) = some (cell j)) :
    ServicedWrites d n a v (cellStates cell v σ) :=
  fun j hj => Device.writeU16_of_wordCell (h j hj) (v j) _

theorem cellStates_trace (cell : Nat → Nat) (v : Nat → Word) (σ : DeviceState) (n : Nat) :
    (cellStates cell v σ n).trace = σ.trace := by
  induction n with
  | zero => rfl
  | succ n ih => exact ih

/-- Writes to words apart from each other: each word holds what was written to it. -/
theorem cellStates_readWord {cell : Nat → Nat} {v : Nat → Word} {σ : DeviceState} {n j : Nat} (hj : j < n)
    (h : ∀ i l, i < l → l < n → cell i + 1 < cell l ∨ cell l + 1 < cell i) :
    (cellStates cell v σ n).mem.readWord (cell j) = v j := by
  induction n with
  | zero => omega
  | succ n ih =>
    rw [cellStates]
    rcases Nat.lt_succ_iff_lt_or_eq.mp hj with hj | rfl
    · rw [Memory.readWord_writeWord_other _ _ _ _ (h j n hj (by omega)), ih hj fun i l hi hl => h i l hi (by omega)]
    · exact Memory.readWord_writeWord_same ..

/-- Writes to words change no byte outside them. -/
theorem cellStates_read_other {cell : Nat → Nat} {v : Nat → Word} {σ : DeviceState} {n k : Nat}
    (h : ∀ j, j < n → k ≠ cell j ∧ k ≠ cell j + 1) : (cellStates cell v σ n).mem.read k = σ.mem.read k := by
  induction n with
  | zero => rfl
  | succ n ih =>
    have hn := h n (by omega)
    rw [cellStates, Memory.read_writeWord, if_neg hn.2, if_neg hn.1, ih fun j hj => h j (by omega)]

end Sys2Proof.Machine
end

