-- ==== Sys2Proof/Laws/Step.lean ====
section
/-!
SUPPORT. The fetch helpers and the step: everything each does. A step that answers a next state did one of two things:
it executed a fetched instruction, or it ended the program.
-/

namespace Sys2Proof.Machine

/-! ### `fetchedTo` -/

@[simp] theorem reg_fetchedTo (s : State) (a : Word) (σ : DeviceState) (r : Reg) :
    (s.fetchedTo a σ).reg r = if r = .ip then a else s.reg r := by simp [State.fetchedTo]
@[simp] theorem sfs_fetchedTo (s : State) (a : Word) (σ : DeviceState) : (s.fetchedTo a σ).sfs = s.sfs := rfl
@[simp] theorem space_fetchedTo (s : State) (a : Word) (σ : DeviceState) : (s.fetchedTo a σ).space = σ := rfl
@[simp] theorem cfg_fetchedTo (s : State) (a : Word) (σ : DeviceState) : (s.fetchedTo a σ).cfg = s.cfg := rfl
@[simp] theorem status_fetchedTo (s : State) (a : Word) (σ : DeviceState) : (s.fetchedTo a σ).status = s.status := rfl

/-- A later fetch decides alone where IP and the address space are. -/
@[simp] theorem fetchedTo_fetchedTo (s : State) (a b : Word) (σ τ : DeviceState) :
    (s.fetchedTo a σ).fetchedTo b τ = s.fetchedTo b τ := by
  refine State.ext_reg (fun r => ?_) rfl rfl rfl rfl
  by_cases h : r = .ip <;> simp [h]

/-! ### The fetch helpers (R73 to R75) -/

theorem fetch8_eq_ok {s t : State} {b : Byte} :
    fetch8 s = .ok (b, t) ↔ ∃ σ, s.cfg.addressSpace.readU8 (s.reg .ip) s.space = some (b, σ) ∧
      t = s.fetchedTo (s.reg .ip + 1) σ := by
  simp only [fetch8, bind_eq_ok, Prod.exists, memRead8_eq_ok, Except.ok.injEq, Prod.mk.injEq]
  constructor
  · rintro ⟨_, _, ⟨σ, h, rfl⟩, rfl, rfl⟩; exact ⟨σ, h, rfl⟩
  · rintro ⟨σ, h, rfl⟩; exact ⟨_, _, ⟨σ, h, rfl⟩, rfl, rfl⟩

theorem fetch8_eq_error {s : State} {f : Fault} :
    fetch8 s = .error f ↔
      s.cfg.addressSpace.readU8 (s.reg .ip) s.space = none ∧ f = .addressRange (s.reg .ip) .fetch8 := by
  simp [fetch8, bind_eq_error, memRead8_eq_error]

theorem fetch16_eq_ok {s t : State} {v : Word} :
    fetch16 s = .ok (v, t) ↔ ∃ σ, s.cfg.addressSpace.readU16 (s.reg .ip) s.space = some (v, σ) ∧
      t = s.fetchedTo (s.reg .ip + 2) σ := by
  simp only [fetch16, bind_eq_ok, Prod.exists, memRead16_eq_ok, Except.ok.injEq, Prod.mk.injEq]
  constructor
  · rintro ⟨_, _, ⟨σ, h, rfl⟩, rfl, rfl⟩; exact ⟨σ, h, rfl⟩
  · rintro ⟨σ, h, rfl⟩; exact ⟨_, _, ⟨σ, h, rfl⟩, rfl, rfl⟩

theorem fetch16_eq_error {s : State} {f : Fault} :
    fetch16 s = .error f ↔
      s.cfg.addressSpace.readU16 (s.reg .ip) s.space = none ∧ f = .addressRange (s.reg .ip) .fetch16 := by
  simp [fetch16, bind_eq_error, memRead16_eq_error]

theorem fetchReg_eq_ok {s t : State} {r : Reg} :
    fetchReg s = .ok (r, t) ↔ ∃ b σ, s.cfg.addressSpace.readU8 (s.reg .ip) s.space = some (b, σ) ∧
      regOfByte s.cfg.ordinals b = some r ∧ t = s.fetchedTo (s.reg .ip + 1) σ := by
  simp only [fetchReg, bind_eq_ok, Prod.exists, fetch8_eq_ok]
  constructor
  · rintro ⟨b, _, ⟨σ, h, rfl⟩, hr⟩
    rw [cfg_fetchedTo] at hr
    split at hr
    · obtain ⟨rfl, rfl⟩ := Prod.mk.inj (Except.ok.inj hr)
      exact ⟨b, σ, h, ‹_›, rfl⟩
    · cases hr
  · rintro ⟨b, σ, h, hr, rfl⟩
    exact ⟨b, _, ⟨σ, h, rfl⟩, by simp [hr]⟩

theorem fetchReg_eq_error {s : State} {f : Fault} :
    fetchReg s = .error f ↔
      (s.cfg.addressSpace.readU8 (s.reg .ip) s.space = none ∧ f = .addressRange (s.reg .ip) .fetch8) ∨
      ∃ b σ, s.cfg.addressSpace.readU8 (s.reg .ip) s.space = some (b, σ) ∧ regOfByte s.cfg.ordinals b = none ∧
        f = .invalidRegister b (s.reg .ip) := by
  simp only [fetchReg, bind_eq_error, Prod.exists, fetch8_eq_ok, fetch8_eq_error]
  refine or_congr_right ?_
  constructor
  · rintro ⟨b, _, ⟨σ, h, rfl⟩, hr⟩
    rw [cfg_fetchedTo] at hr
    split at hr
    · cases hr
    · exact ⟨b, σ, h, ‹_›, (Except.error.inj hr).symm⟩
  · rintro ⟨b, σ, h, hr, rfl⟩
    exact ⟨b, _, ⟨σ, h, rfl⟩, by simp [hr]⟩

/-! ### The fetch of an instruction -/

/-- Fetches move IP and the address space on and change nothing else; the address space moves by reads. -/
inductive Fetches (d : Device) : DeviceState → DeviceState → Prop where
  | refl (σ : DeviceState) : Fetches d σ σ
  | read8 {σ τ υ : DeviceState} {a : Word} {b : Byte} : d.readU8 a σ = some (b, τ) → Fetches d τ υ → Fetches d σ υ
  | read16 {σ τ υ : DeviceState} {a v : Word} : d.readU16 a σ = some (v, τ) → Fetches d τ υ → Fetches d σ υ

theorem Fetches.trans {d : Device} {σ τ υ : DeviceState} (h : Fetches d σ τ) (h' : Fetches d τ υ) : Fetches d σ υ := by
  induction h with
  | refl => exact h'
  | read8 hr _ ih => exact .read8 hr (ih h')
  | read16 hr _ ih => exact .read16 hr (ih h')

/-- Fetches change no byte. -/
theorem Fetches.mem {d : Device} {σ τ : DeviceState} (h : Fetches d σ τ) : τ.mem = σ.mem := by
  induction h with
  | refl => rfl
  | read8 hr _ ih => rw [ih, Device.readU8_mem hr]
  | read16 hr _ ih => rw [ih, Device.readU16_mem hr]

/-- What a helper that fetches does when it answers. -/
abbrev FetchHelper {α : Type} (fetch : State → Except Fault (α × State)) : Prop :=
  ∀ {s t : State} {x : α}, fetch s = .ok (x, t) →
    ∃ a σ, t = s.fetchedTo a σ ∧ Fetches s.cfg.addressSpace s.space σ

theorem fetch16_fetches : FetchHelper fetch16 := fun h => by
  obtain ⟨σ, hr, rfl⟩ := fetch16_eq_ok.mp h
  exact ⟨_, σ, rfl, .read16 hr (.refl σ)⟩

theorem fetchReg_fetches : FetchHelper fetchReg := fun h => by
  obtain ⟨b, σ, hr, -, rfl⟩ := fetchReg_eq_ok.mp h
  exact ⟨_, σ, rfl, .read8 hr (.refl σ)⟩

theorem fetched_trans {s t u : State} (h : ∃ a σ, t = s.fetchedTo a σ ∧ Fetches s.cfg.addressSpace s.space σ)
    (h' : ∃ a σ, u = t.fetchedTo a σ ∧ Fetches t.cfg.addressSpace t.space σ) :
    ∃ a σ, u = s.fetchedTo a σ ∧ Fetches s.cfg.addressSpace s.space σ := by
  obtain ⟨a, σ, rfl, hf⟩ := h
  obtain ⟨b, τ, rfl, hf'⟩ := h'
  exact ⟨b, τ, by simp, hf.trans hf'⟩

theorem decodeOperands_fetches {k : Mnemonic} : FetchHelper (decodeOperands fetch16 fetchReg k) := by
  intro s t i h
  have h16 := @fetch16_fetches
  have hreg := @fetchReg_fetches
  cases k
  case ret | hlt =>
    obtain ⟨-, rfl⟩ := Prod.mk.inj (Except.ok.inj h)
    exact ⟨s.reg .ip, s.space, State.ext_reg (fun r => by by_cases hr : r = .ip <;> simp [hr]) rfl rfl rfl rfl, .refl _⟩
  case movLitReg | movRegReg | movRegMem | movMemReg | addRegReg | jmpNotEq =>
    simp only [decodeOperands, bind_eq_ok, Prod.exists, Except.ok.injEq, Prod.mk.injEq] at h
    obtain ⟨_, u, hu, _, v, hv, -, rfl⟩ := h
    exact fetched_trans (by first | exact h16 hu | exact hreg hu) (by first | exact h16 hv | exact hreg hv)
  all_goals
    simp only [decodeOperands, bind_eq_ok, Prod.exists, Except.ok.injEq, Prod.mk.injEq] at h
    obtain ⟨_, u, hu, -, rfl⟩ := h
    first | exact h16 hu | exact hreg hu

theorem fetchInstr_eq_ok {s t : State} {x : Fetched} (h : fetchInstr s = .ok (x, t)) :
    ∃ a σ, t = s.fetchedTo a σ ∧ Fetches s.cfg.addressSpace s.space σ := by
  simp only [fetchInstr, bind_eq_ok, Prod.exists, fetch8_eq_ok] at h
  obtain ⟨b, _, ⟨σ, hr, rfl⟩, h⟩ := h
  have h8 : ∃ a τ, s.fetchedTo (s.reg .ip + 1) σ = s.fetchedTo a τ ∧ Fetches s.cfg.addressSpace s.space τ :=
    ⟨_, σ, rfl, .read8 hr (.refl σ)⟩
  split at h
  · simp only [bind_eq_ok, Prod.exists, Except.ok.injEq, Prod.mk.injEq] at h
    obtain ⟨i, u, hu, -, rfl⟩ := h
    exact fetched_trans h8 (decodeOperands_fetches hu)
  · obtain ⟨-, rfl⟩ := Prod.mk.inj (Except.ok.inj h)
    exact h8
  · cases h

/-! ### The step -/

@[simp] theorem execute_instr (i : Instr) (s : State) : execute (.ok (.instr i, s)) = exec i s := rfl
@[simp] theorem execute_endOfProgram (a : Word) (s : State) : execute (.ok (.endOfProgram a, s)) = endProgram a s := rfl
@[simp] theorem execute_error (f : Fault) : execute (.error f) = .fault f := rfl

theorem step_of_running {s : State} (hw : s.cfg.wf = true) (hs : s.status = .running) :
    step s = execute (fetchInstr s) := by
  simp only [step, if_pos hw, hs]

/-- Everything a step that answers can have done: it ran in a well-formed configuration from a state that was running, it
fetched, and then it executed an instruction or ended the program. -/
theorem step_eq_next {s t : State} (h : step s = .next t) :
    s.cfg.wf = true ∧ s.status = .running ∧
    ∃ a σ, Fetches s.cfg.addressSpace s.space σ ∧
      ((∃ i, fetchInstr s = .ok (.instr i, s.fetchedTo a σ) ∧ exec i (s.fetchedTo a σ) = .next t) ∨
       (∃ b, fetchInstr s = .ok (.endOfProgram b, s.fetchedTo a σ) ∧ t = (s.fetchedTo a σ).setStatus (.endOfProgram b))) := by
  rw [step] at h
  split at h
  · rename_i hw
    split at h
    · rename_i hs
      rcases hf : fetchInstr s with f | ⟨x, u⟩
      · rw [hf, execute_error] at h
        cases h
      · obtain ⟨a, σ, rfl, hσ⟩ := fetchInstr_eq_ok hf
        rw [hf] at h
        cases x with
        | instr i => exact ⟨hw, hs, a, σ, hσ, .inl ⟨i, rfl, h⟩⟩
        | endOfProgram b => exact ⟨hw, hs, a, σ, hσ, .inr ⟨b, rfl, (Host.Outcome.next.inj h).symm⟩⟩
    · cases h
    · cases h
  · cases h

/-! ### A step at the opcode of an instruction -/

/-- After the opcode byte the step fetches the operands in order and executes. -/
theorem step_of_atOpcode {s : State} {k : Mnemonic} {A : Word} {σ : DeviceState} (h : AtOpcode s k A σ) :
    step s = execute ((decodeOperands fetch16 fetchReg k (s.fetchedTo (A + 1) σ)).map fun x => (.instr x.1, x.2)) := by
  obtain ⟨hw, hs, rfl, hr⟩ := h
  have hm : s.cfg.opcodes.wf = true := by
    simp only [Config.wf, Bool.and_eq_true] at hw
    exact hw.1.1
  have hf : fetchInstr s =
      (decodeOperands fetch16 fetchReg k (s.fetchedTo (s.reg .ip + 1) σ) >>= fun x => .ok (.instr x.1, x.2)) := by
    simp only [fetchInstr, fetch8_eq_ok.mpr ⟨σ, hr, rfl⟩, ok_bind, cfg_fetchedTo, decodeOpcode_byte hm]
  rw [step_of_running hw hs, hf]
  cases decodeOperands fetch16 fetchReg k (s.fetchedTo (s.reg .ip + 1) σ) <;> rfl

/-- A 16-bit operand of a step: what a fetch at its address answers decides. -/
theorem wordOperand_of_fetch {s : State} {A : Word} {σ : DeviceState} {P : Word → DeviceState → Prop}
    (hf : ∀ f, fetch16 (s.fetchedTo A σ) = .error f → step s = .fault f)
    (hok : ∀ v τ, fetch16 (s.fetchedTo A σ) = .ok (v, s.fetchedTo (A + 2) τ) → P v τ) : WordOperand s A σ P :=
  ⟨fun h => hf _ (fetch16_eq_error.mpr (by simpa using h)),
   fun v τ h => hok v τ (fetch16_eq_ok.mpr ⟨τ, by simpa using h, by simp⟩)⟩

/-- A register operand of a step: what a fetch at its address answers decides. -/
theorem regOperand_of_fetch {s : State} {A : Word} {σ : DeviceState} {P : Reg → DeviceState → Prop}
    (hf : ∀ f, fetchReg (s.fetchedTo A σ) = .error f → step s = .fault f)
    (hok : ∀ r τ, fetchReg (s.fetchedTo A σ) = .ok (r, s.fetchedTo (A + 1) τ) → P r τ) : RegOperand s A σ P :=
  ⟨fun h => hf _ (fetchReg_eq_error.mpr (.inl (by simpa using h))),
   fun b τ h => ⟨fun hp hb => hf _ (fetchReg_eq_error.mpr (.inr ⟨b, τ, by simpa using h, by
      simpa [regOfByte_eq_none] using ⟨hp, hb⟩, by simp⟩)),
    fun r hr => hok r τ (fetchReg_eq_ok.mpr ⟨b, τ, by simpa using h, regOfByte_eq_some.mpr (by simpa [Names] using hr),
      by simp⟩)⟩⟩

/-- After a byte that is no opcode the step ends the program or faults (R136, R137). -/
theorem step_of_atByte_no_opcode {s : State} {b : Byte} {A : Word} {σ : DeviceState} (h : AtByte s b A σ)
    (hk : ∀ k, s.cfg.opcodes.byte k ≠ b) :
    step s = if b = 0x00 then endProgram A (s.fetchedTo (A + 1) σ) else .fault (.unknownOpcode b A) := by
  obtain ⟨hw, hs, rfl, hr⟩ := h
  rw [step_of_running hw hs]
  by_cases hb : b = 0x00
  · simp only [fetchInstr, fetch8_eq_ok.mpr ⟨σ, hr, rfl⟩, ok_bind, cfg_fetchedTo, decodeOpcode_of_not_opcode hk,
      if_pos hb, execute_endOfProgram]
  · simp only [fetchInstr, fetch8_eq_ok.mpr ⟨σ, hr, rfl⟩, ok_bind, cfg_fetchedTo, decodeOpcode_of_not_opcode hk,
      if_neg hb, execute_error]

/-! ### Fetches from memory devices -/

/-- A byte that a memory device holds is what a byte access reads. -/
theorem readU8_of_byteAt {s : State} {a : Word} {b : Byte} (h : s.byteAt a = some b) :
    s.cfg.addressSpace.readU8 a s.space = some (b, s.space) := by
  simp only [State.byteAt, Option.map_eq_some_iff] at h
  obtain ⟨k, hk, rfl⟩ := h
  exact Device.readU8_of_byteCell hk _

/-- A word that a memory device holds is what a word access reads. -/
theorem readU16_of_wordAt {s : State} {a v : Word} (h : s.wordAt a = some v) :
    s.cfg.addressSpace.readU16 a s.space = some (v, s.space) := by
  simp only [State.wordAt, Option.map_eq_some_iff] at h
  obtain ⟨k, hk, rfl⟩ := h
  exact Device.readU16_of_wordCell hk _

theorem fetchReg_of_byteAt {s : State} {a : Word} {b : Byte} {r : Reg} (h : s.byteAt a = some b)
    (hr : regOfByte s.cfg.ordinals b = some r) :
    fetchReg (s.fetchedTo a s.space) = .ok (r, s.fetchedTo (a + 1) s.space) :=
  fetchReg_eq_ok.mpr ⟨b, s.space, by simpa using readU8_of_byteAt h, by simpa using hr, by simp⟩

theorem fetch16_of_wordAt {s : State} {a v : Word} (h : s.wordAt a = some v) :
    fetch16 (s.fetchedTo a s.space) = .ok (v, s.fetchedTo (a + 2) s.space) :=
  fetch16_eq_ok.mpr ⟨s.space, by simpa using readU16_of_wordAt h, by simp⟩

end Sys2Proof.Machine
end

