-- ==== Sys2Proof/Laws/Exec.lean ====
section
/-!
SUPPORT. What an instruction does to the address space, said once for all of them: word reads and word writes, in some
order, and nothing else.
-/

namespace Sys2Proof.Machine

/-- The address space moves by the accesses that instructions make: reads of bytes and words, writes of words (R59). -/
inductive Accesses (d : Device) : DeviceState → DeviceState → Prop where
  | refl (σ : DeviceState) : Accesses d σ σ
  | read8 {σ τ υ : DeviceState} {a : Word} {b : Byte} : d.readU8 a σ = some (b, τ) → Accesses d τ υ → Accesses d σ υ
  | read16 {σ τ υ : DeviceState} {a v : Word} : d.readU16 a σ = some (v, τ) → Accesses d τ υ → Accesses d σ υ
  | write16 {σ τ υ : DeviceState} {a v : Word} : d.writeU16 a v σ = some τ → Accesses d τ υ → Accesses d σ υ

theorem Accesses.trans {d : Device} {σ τ υ : DeviceState} (h : Accesses d σ τ) (h' : Accesses d τ υ) : Accesses d σ υ := by
  induction h with
  | refl => exact h'
  | read8 hr _ ih => exact .read8 hr (ih h')
  | read16 hr _ ih => exact .read16 hr (ih h')
  | write16 hw _ ih => exact .write16 hw (ih h')

theorem Fetches.accesses {d : Device} {σ τ : DeviceState} (h : Fetches d σ τ) : Accesses d σ τ := by
  induction h with
  | refl => exact .refl _
  | read8 hr _ ih => exact .read8 hr ih
  | read16 hr _ ih => exact .read16 hr ih

theorem ServicedWrites.accesses {d : Device} {n : Nat} {a v : Nat → Word} {σ : Nat → DeviceState}
    (h : ServicedWrites d n a v σ) : Accesses d (σ 0) (σ n) := by
  induction n with
  | zero => exact .refl _
  | succ n ih =>
    exact (ih fun j hj => h j (by omega)).trans (.write16 (h n (by omega)) (.refl _))

theorem ServicedReads.accesses {d : Device} {n : Nat} {a v : Nat → Word} {σ : Nat → DeviceState}
    (h : ServicedReads d n a v σ) : Accesses d (σ 0) (σ n) := by
  induction n with
  | zero => exact .refl _
  | succ n ih =>
    exact (ih fun j hj => h j (by omega)).trans (.read16 (h n (by omega)) (.refl _))

/-- An instruction that answers kept the configuration and moved the address space by accesses. -/
theorem exec_accesses {i : Instr} {s t : State} (h : exec i s = .next t) :
    t.cfg = s.cfg ∧ Accesses s.cfg.addressSpace s.space t.space := by
  have hpush : ∀ {v : Word} {u : State}, push v s = .ok u → u.cfg = s.cfg ∧ Accesses s.cfg.addressSpace s.space u.space :=
    fun hu => by
      obtain ⟨σ, hσ, rfl⟩ := push_eq_ok.mp hu
      exact ⟨rfl, .write16 hσ (.refl _)⟩
  have hcall : ∀ {u : State}, pushState s = .ok u → u.cfg = s.cfg ∧ Accesses s.cfg.addressSpace s.space u.space :=
    fun hu => by
      obtain ⟨σ, h0, hw, rfl⟩ := pushState_eq_ok hu
      exact ⟨rfl, h0 ▸ hw.accesses⟩
  cases i with
  | movLitReg v d => cases h; exact ⟨rfl, .refl _⟩
  | movRegReg r d => cases h; exact ⟨rfl, .refl _⟩
  | movRegMem r a =>
    obtain ⟨σ, hσ, rfl⟩ := memWrite16_eq_ok.mp (finish_eq_next.mp h)
    exact ⟨rfl, .write16 hσ (.refl _)⟩
  | movMemReg a d =>
    simp only [exec, execMovMemReg, finish_eq_next, bind_eq_ok, Prod.exists] at h
    obtain ⟨v, u, hu, h⟩ := h
    obtain ⟨σ, hσ, rfl⟩ := memRead16_eq_ok.mp hu
    cases h
    exact ⟨rfl, .read16 hσ (.refl _)⟩
  | addRegReg p q => cases h; exact ⟨rfl, .refl _⟩
  | jmpNotEq v a =>
    simp only [exec, execJmpNotEq, Host.Outcome.next.injEq] at h
    subst h
    split <;> exact ⟨rfl, .refl _⟩
  | pshLit v => exact hpush (finish_eq_next.mp h)
  | pshReg r => exact hpush (finish_eq_next.mp h)
  | pop d =>
    simp only [exec, execPop, finish_eq_next, bind_eq_ok, Prod.exists] at h
    obtain ⟨v, u, hu, h⟩ := h
    obtain ⟨σ, hσ, rfl⟩ := pop_eq_ok.mp hu
    cases h
    exact ⟨rfl, .read16 hσ (.refl _)⟩
  | calLit a =>
    simp only [exec, execCalLit, finish_eq_next, bind_eq_ok] at h
    obtain ⟨u, hu, h⟩ := h
    cases h
    exact ⟨(hcall hu).1, (hcall hu).2⟩
  | calReg r =>
    simp only [exec, execCalReg, finish_eq_next, bind_eq_ok] at h
    obtain ⟨u, hu, h⟩ := h
    cases h
    exact ⟨(hcall hu).1, (hcall hu).2⟩
  | ret =>
    obtain ⟨w, σ, h0, hr, rfl⟩ := popState_eq_ok (finish_eq_next.mp h)
    exact ⟨rfl, h0 ▸ hr.accesses⟩
  | hlt => cases h; exact ⟨rfl, .refl _⟩

/-! ### Runs -/

theorem runFor_zero (s : State) : runFor 0 s = .next s := rfl

theorem runFor_succ (fuel : Nat) (s : State) : runFor (fuel + 1) s = goOn (runFor fuel) (step s) := rfl

/-- A run that answers after a step: the step answered, and it went on, or it was the last. -/
theorem goOn_eq_next {run : State → Host.Outcome State Fault Refusal} {o : Host.Outcome State Fault Refusal} {t : State}
    (h : goOn run o = .next t) : ∃ u, o = .next u ∧ ((u.status = .running ∧ run u = .next t) ∨ (u.status ≠ .running ∧ u = t)) := by
  cases o with
  | next u =>
    simp only [goOn] at h
    split at h
    · exact ⟨u, rfl, .inl ⟨‹_›, h⟩⟩
    · exact ⟨u, rfl, .inr ⟨‹_›, Host.Outcome.next.inj h⟩⟩
  | fault f => cases h
  | refused r => cases h

end Sys2Proof.Machine
end

