-- ==== Sys2Proof/Laws/Operations.lean ====
section
/-!
SUPPORT. The Device operations of a step as a list (R59, R62): performing a list of them, what that leaves in the record of
the peripherals, and that a step performs the ones it issues.
-/

namespace Sys2Proof.Machine

/-! ### Performing operations -/

@[simp] theorem performAll_nil (d : Device) (σ : DeviceState) : performAll d [] σ = some σ := rfl

theorem performAll_cons_eq_some {d : Device} {op : DeviceOp} {ops : List DeviceOp} {σ υ : DeviceState} :
    performAll d (op :: ops) σ = some υ ↔ ∃ τ, op.perform d σ = some τ ∧ performAll d ops τ = some υ := by
  simp [performAll, Option.bind_eq_some_iff]

theorem performAll_append {d : Device} {xs ys : List DeviceOp} {σ τ υ : DeviceState} (h : performAll d xs σ = some τ)
    (h' : performAll d ys τ = some υ) : performAll d (xs ++ ys) σ = some υ := by
  induction xs generalizing σ with
  | nil => cases h; exact h'
  | cons x xs ih =>
    obtain ⟨ρ, hx, h⟩ := performAll_cons_eq_some.mp h
    exact performAll_cons_eq_some.mpr ⟨ρ, hx, ih h⟩

@[simp] theorem perform_read8 {d : Device} {a : Word} {σ τ : DeviceState} :
    (DeviceOp.read8 a).perform d σ = some τ ↔ ∃ b, d.readU8 a σ = some (b, τ) := by simp [DeviceOp.perform]

@[simp] theorem perform_read16 {d : Device} {a : Word} {σ τ : DeviceState} :
    (DeviceOp.read16 a).perform d σ = some τ ↔ ∃ v, d.readU16 a σ = some (v, τ) := by simp [DeviceOp.perform]

@[simp] theorem perform_write16 {d : Device} {a v : Word} {σ τ : DeviceState} :
    (DeviceOp.write16 a v).perform d σ = some τ ↔ d.writeU16 a v σ = some τ := Iff.rfl

theorem ServicedWrites.performAll {d : Device} {n : Nat} {a v : Nat → Word} {σ : Nat → DeviceState}
    (h : ServicedWrites d n a v σ) :
    Machine.performAll d ((List.range n).map fun j => .write16 (a j) (v j)) (σ 0) = some (σ n) := by
  induction n with
  | zero => rfl
  | succ n ih =>
    rw [List.range_succ, List.map_append]
    exact performAll_append (ih fun j hj => h j (by omega))
      (performAll_cons_eq_some.mpr ⟨_, perform_write16.mpr (h n (by omega)), rfl⟩)

theorem ServicedReads.performAll {d : Device} {n : Nat} {a v : Nat → Word} {σ : Nat → DeviceState}
    (h : ServicedReads d n a v σ) :
    Machine.performAll d ((List.range n).map fun j => .read16 (a j)) (σ 0) = some (σ n) := by
  induction n with
  | zero => rfl
  | succ n ih =>
    rw [List.range_succ, List.map_append]
    exact performAll_append (ih fun j hj => h j (by omega))
      (performAll_cons_eq_some.mpr ⟨_, perform_read16.mpr ⟨_, h n (by omega)⟩, rfl⟩)

/-! ### What an operation leaves in the record -/

/-- A serviced operation went to no peripheral and left the record as it was, or it went to one and is its newest event. -/
theorem perform_cases {d : Device} {op : DeviceOp} {σ τ : DeviceState} (h : op.perform d σ = some τ) :
    (op.toPeripheral d = false ∧ τ.trace = σ.trace) ∨
    (op.toPeripheral d = true ∧ ∃ e, op.Recorded d e ∧ τ.trace = e :: σ.trace) := by
  cases op with
  | read8 a =>
    obtain ⟨b, h⟩ := perform_read8.mp h
    rcases Device.readU8_cases h with ⟨k, hk, -, rfl⟩ | ⟨id, o, hr, rfl⟩
    · obtain ⟨_, _, _, hr, -⟩ := Device.byteCell_eq_some hk
      exact .inl ⟨by simp [DeviceOp.toPeripheral, DeviceOp.address, hr], rfl⟩
    · exact .inr ⟨by simp [DeviceOp.toPeripheral, DeviceOp.address, hr], ⟨id, o, .read8 b⟩, ⟨hr, b, rfl⟩, rfl⟩
  | read16 a =>
    obtain ⟨v, h⟩ := perform_read16.mp h
    rcases Device.readU16_cases h with ⟨k, hk, -, rfl⟩ | ⟨id, o, hr, rfl⟩
    · obtain ⟨_, _, _, hr, -⟩ := Device.wordCell_eq_some hk
      exact .inl ⟨by simp [DeviceOp.toPeripheral, DeviceOp.address, hr], rfl⟩
    · exact .inr ⟨by simp [DeviceOp.toPeripheral, DeviceOp.address, hr], ⟨id, o, .read16 v⟩, ⟨hr, v, rfl⟩, rfl⟩
  | write16 a v =>
    rcases Device.writeU16_cases (perform_write16.mp h) with ⟨k, hk, rfl⟩ | ⟨-, id, o, hr, rfl⟩
    · obtain ⟨_, _, _, hr, -⟩ := Device.wordCell_eq_some hk
      exact .inl ⟨by simp [DeviceOp.toPeripheral, DeviceOp.address, hr], rfl⟩
    · exact .inr ⟨by simp [DeviceOp.toPeripheral, DeviceOp.address, hr], ⟨id, o, .write16 v⟩, ⟨hr, rfl⟩, rfl⟩

/-- Operations performed in order leave one event for each that went to a peripheral, in order, the newest at the head. -/
theorem performAll_trace {d : Device} {ops : List DeviceOp} {σ τ : DeviceState} (h : performAll d ops σ = some τ) :
    ∃ events, τ.trace = events.reverse ++ σ.trace ∧
      List.Forall₂ (DeviceOp.Recorded d) (ops.filter (DeviceOp.toPeripheral d)) events := by
  induction ops generalizing σ with
  | nil => cases h; exact ⟨[], rfl, .nil⟩
  | cons op ops ih =>
    obtain ⟨ρ, hop, h⟩ := performAll_cons_eq_some.mp h
    obtain ⟨es, ht, hes⟩ := ih h
    rcases perform_cases hop with ⟨hp, hρ⟩ | ⟨hp, e, he, hρ⟩
    · exact ⟨es, by rw [ht, hρ], by rwa [List.filter_cons_of_neg (by simp [hp])]⟩
    · exact ⟨e :: es, by simp [ht, hρ], by rw [List.filter_cons_of_pos hp]; exact .cons he hes⟩

theorem toPeripheral_of_memoryOnly {d : Device} (h : memoryOnly d = true) (op : DeviceOp) : op.toPeripheral d = false := by
  simp only [DeviceOp.toPeripheral]
  split
  · rename_i hr
    exact absurd hr (Device.resolve_memoryOnly h)
  · rfl

/-! ### The operations of a step -/

theorem fetch16_performs {s t : State} {v : Word} (h : fetch16 s = .ok (v, t)) :
    ∃ σ, (DeviceOp.read16 (s.reg .ip)).perform s.cfg.addressSpace s.space = some σ ∧ t = s.fetchedTo (s.reg .ip + 2) σ := by
  obtain ⟨σ, hr, rfl⟩ := fetch16_eq_ok.mp h
  exact ⟨σ, perform_read16.mpr ⟨v, hr⟩, rfl⟩

theorem fetchReg_performs {s t : State} {r : Reg} (h : fetchReg s = .ok (r, t)) :
    ∃ σ, (DeviceOp.read8 (s.reg .ip)).perform s.cfg.addressSpace s.space = some σ ∧ t = s.fetchedTo (s.reg .ip + 1) σ := by
  obtain ⟨b, σ, hr, -, rfl⟩ := fetchReg_eq_ok.mp h
  exact ⟨σ, perform_read8.mpr ⟨b, hr⟩, rfl⟩

/-- The operand fetches after an opcode byte at `A` performed the rest of the fetch operations, and left IP past them. -/
theorem decodeOperands_performs {k : Mnemonic} {s u : State} {i : Instr} {A : Word} (hA : s.reg .ip = A + 1)
    (h : decodeOperands fetch16 fetchReg k s = .ok (i, u)) :
    i.mnemonic = k ∧ ∃ σ, performAll s.cfg.addressSpace (fetchOps A k).tail s.space = some σ ∧
      u = s.fetchedTo (A + BitVec.ofNat 16 k.length) σ := by
  cases k
  case ret | hlt =>
    obtain ⟨rfl, rfl⟩ := Prod.mk.inj (Except.ok.inj h)
    exact ⟨rfl, s.space, rfl, State.ext_reg (fun r => by by_cases hr : r = .ip <;> simp [hr, hA, Mnemonic.length]) rfl rfl rfl rfl⟩
  case movLitReg | movRegReg | movRegMem | movMemReg | addRegReg | jmpNotEq =>
    simp only [decodeOperands, bind_eq_ok, Prod.exists, Except.ok.injEq, Prod.mk.injEq] at h
    obtain ⟨_, v, hv, _, w, hw, rfl, rfl⟩ := h
    obtain ⟨σ, hσ, rfl⟩ : ∃ σ, _ ∧ _ := by first | exact fetch16_performs hv | exact fetchReg_performs hv
    obtain ⟨τ, hτ, rfl⟩ : ∃ τ, _ ∧ _ := by first | exact fetch16_performs hw | exact fetchReg_performs hw
    simp only [hA, reg_fetchedTo, cfg_fetchedTo, space_fetchedTo, if_true, fetchedTo_fetchedTo, BitVec.add_assoc] at hσ hτ ⊢
    exact ⟨rfl, τ, performAll_cons_eq_some.mpr ⟨σ, hσ, performAll_cons_eq_some.mpr ⟨τ, hτ, rfl⟩⟩, rfl⟩
  all_goals
    simp only [decodeOperands, bind_eq_ok, Prod.exists, Except.ok.injEq, Prod.mk.injEq] at h
    obtain ⟨_, v, hv, rfl, rfl⟩ := h
    obtain ⟨σ, hσ, rfl⟩ : ∃ σ, _ ∧ _ := by first | exact fetch16_performs hv | exact fetchReg_performs hv
    simp only [hA, BitVec.add_assoc] at hσ ⊢
    exact ⟨rfl, σ, performAll_cons_eq_some.mpr ⟨σ, hσ, rfl⟩, rfl⟩

/-- A fetch that finds an instruction read its opcode byte at IP, performed its fetch operations, and left IP past it. -/
theorem fetchInstr_performs {s u : State} {i : Instr} (h : fetchInstr s = .ok (.instr i, u)) :
    (∃ τ, s.cfg.addressSpace.readU8 (s.reg .ip) s.space = some (s.cfg.opcodes.byte i.mnemonic, τ)) ∧
    ∃ σ, performAll s.cfg.addressSpace (fetchOps (s.reg .ip) i.mnemonic) s.space = some σ ∧
      u = s.fetchedTo (s.reg .ip + BitVec.ofNat 16 i.mnemonic.length) σ := by
  simp only [fetchInstr, bind_eq_ok, Prod.exists, fetch8_eq_ok] at h
  obtain ⟨b, _, ⟨σ, hr, rfl⟩, h⟩ := h
  split at h
  · rename_i k hk
    simp only [bind_eq_ok, Prod.exists, Except.ok.injEq, Prod.mk.injEq, Fetched.instr.injEq] at h
    obtain ⟨i, v, h, rfl, rfl⟩ := h
    obtain ⟨rfl, τ, hτ, rfl⟩ := decodeOperands_performs (A := s.reg .ip) (by simp) h
    have hb : s.cfg.opcodes.byte i.mnemonic = b := decodeOpcode_eq_instr hk
    refine ⟨⟨σ, hb ▸ hr⟩, τ, ?_, by simp⟩
    rw [show fetchOps (s.reg .ip) i.mnemonic = .read8 (s.reg .ip) :: (fetchOps (s.reg .ip) i.mnemonic).tail by
      cases i <;> rfl]
    exact performAll_cons_eq_some.mpr ⟨σ, perform_read8.mpr ⟨b, hr⟩, hτ⟩
  · cases h
  · cases h

/-- A fetch that finds the end-of-program marker read 0x00 at IP and did nothing else. -/
theorem fetchInstr_endOfProgram {s u : State} {a : Word} (h : fetchInstr s = .ok (.endOfProgram a, u)) :
    a = s.reg .ip ∧ ∃ σ, s.cfg.addressSpace.readU8 (s.reg .ip) s.space = some (0x00, σ) ∧
      u = s.fetchedTo (s.reg .ip + 1) σ := by
  simp only [fetchInstr, bind_eq_ok, Prod.exists, fetch8_eq_ok] at h
  obtain ⟨b, _, ⟨σ, hr, rfl⟩, h⟩ := h
  split at h
  · simp [bind_eq_ok] at h
  · rename_i hk
    simp only [Except.ok.injEq, Prod.mk.injEq, Fetched.endOfProgram.injEq] at h
    obtain ⟨rfl, rfl⟩ := h
    exact ⟨rfl, σ, decodeOpcode_eq_endOfProgram hk ▸ hr, rfl⟩
  · cases h

/-- The count of a return is the eleventh word it pops. -/
theorem argumentCount_of_reads {s : State} {n : Nat} {w : Nat → Word} {σ : Nat → DeviceState} (h0 : σ 0 = s.space)
    (hn : 10 < n) (h : ServicedReads s.cfg.addressSpace n (popAddr s) w σ) : argumentCount s = (w 10).toNat := by
  have h1 : ServicedReads s.cfg.addressSpace 10 (popAddr s) w σ := fun j hj => h j (by omega)
  simp only [argumentCount, returnPops, ← h0, h1.performAll, Option.bind_some, h 10 hn]

/-- An instruction that answers performed its own operations. -/
theorem exec_performs {i : Instr} {s t : State} (h : exec i s = .next t) :
    performAll s.cfg.addressSpace (dataOps s i) s.space = some t.space := by
  have hwrite : ∀ {a v : Word} {σ : DeviceState}, s.cfg.addressSpace.writeU16 a v s.space = some σ →
      performAll s.cfg.addressSpace [.write16 a v] s.space = some σ := fun hσ =>
    performAll_cons_eq_some.mpr ⟨_, perform_write16.mpr hσ, rfl⟩
  have hread : ∀ {a v : Word} {σ : DeviceState}, s.cfg.addressSpace.readU16 a s.space = some (v, σ) →
      performAll s.cfg.addressSpace [.read16 a] s.space = some σ := fun hσ =>
    performAll_cons_eq_some.mpr ⟨_, perform_read16.mpr ⟨_, hσ⟩, rfl⟩
  have hcall : ∀ {u : State}, pushState s = .ok u →
      performAll s.cfg.addressSpace ((List.range 10).map fun j => .write16 (pushAddr s j) (frameWord s j)) s.space =
        some u.space := fun hu => by
    obtain ⟨σ, h0, hw, rfl⟩ := pushState_eq_ok hu
    rw [← h0]
    exact hw.performAll
  cases i with
  | movLitReg v d => cases h; rfl
  | movRegReg r d => cases h; rfl
  | addRegReg p q => cases h; rfl
  | hlt => cases h; rfl
  | jmpNotEq v a =>
    simp only [exec, execJmpNotEq, Host.Outcome.next.injEq] at h
    subst h
    split <;> rfl
  | movRegMem r a =>
    obtain ⟨σ, hσ, rfl⟩ := memWrite16_eq_ok.mp (finish_eq_next.mp h)
    exact hwrite hσ
  | movMemReg a d =>
    simp only [exec, execMovMemReg, finish_eq_next, bind_eq_ok, Prod.exists] at h
    obtain ⟨v, u, hu, h⟩ := h
    obtain ⟨σ, hσ, rfl⟩ := memRead16_eq_ok.mp hu
    cases h
    exact hread hσ
  | pshLit v =>
    obtain ⟨σ, hσ, rfl⟩ := push_eq_ok.mp (finish_eq_next.mp h)
    exact hwrite hσ
  | pshReg r =>
    obtain ⟨σ, hσ, rfl⟩ := push_eq_ok.mp (finish_eq_next.mp h)
    exact hwrite hσ
  | pop d =>
    simp only [exec, execPop, finish_eq_next, bind_eq_ok, Prod.exists] at h
    obtain ⟨v, u, hu, h⟩ := h
    obtain ⟨σ, hσ, rfl⟩ := pop_eq_ok.mp hu
    cases h
    exact hread hσ
  | calLit a =>
    simp only [exec, execCalLit, finish_eq_next, bind_eq_ok] at h
    obtain ⟨u, hu, h⟩ := h
    cases h
    simpa only [dataOps, space_setReg] using hcall hu
  | calReg r =>
    simp only [exec, execCalReg, finish_eq_next, bind_eq_ok] at h
    obtain ⟨u, hu, h⟩ := h
    cases h
    simpa only [dataOps, space_setReg] using hcall hu
  | ret =>
    obtain ⟨w, σ, h0, hr, rfl⟩ := popState_eq_ok (finish_eq_next.mp h)
    rw [dataOps, argumentCount_of_reads h0 (by omega) hr, returnPops, ← h0]
    exact hr.performAll

end Sys2Proof.Machine
end

