-- ==== Sys2Proof/Laws/PerInstr.lean ====
section
/-!
SUPPORT. Facts of every instruction as syntax, one lemma per constructor: what its operand fields decode to, and how long its
encoding is (spec/30_encoding.md R77).
-/

namespace Sys2Proof.Laws

namespace OperandRoundTrip

/-- The operand fields of an instruction, followed by any bytes, decode to it and leave those bytes. -/
def Statement (i : Instr) : Prop :=
  ∀ (p : OrdinalPolicy) (rest : List Byte),
    decodeOperands takeWord (takeReg p) i.mnemonic (encodeOperands i ++ rest) = .ok (i, rest)

theorem movLitReg (v : Word) (d : Reg) : Statement (.movLitReg v d) := by
  intro p rest; simp [decodeOperands, encodeOperands, Instr.mnemonic]

theorem movRegReg (r d : Reg) : Statement (.movRegReg r d) := by
  intro p rest; simp [decodeOperands, encodeOperands, Instr.mnemonic]

theorem movRegMem (r : Reg) (a : Word) : Statement (.movRegMem r a) := by
  intro p rest; simp [decodeOperands, encodeOperands, Instr.mnemonic]

theorem movMemReg (a : Word) (d : Reg) : Statement (.movMemReg a d) := by
  intro p rest; simp [decodeOperands, encodeOperands, Instr.mnemonic]

theorem addRegReg (p q : Reg) : Statement (.addRegReg p q) := by
  intro p rest; simp [decodeOperands, encodeOperands, Instr.mnemonic]

theorem jmpNotEq (v t : Word) : Statement (.jmpNotEq v t) := by
  intro p rest; simp [decodeOperands, encodeOperands, Instr.mnemonic]

theorem pshLit (v : Word) : Statement (.pshLit v) := by
  intro p rest; simp [decodeOperands, encodeOperands, Instr.mnemonic]

theorem pshReg (r : Reg) : Statement (.pshReg r) := by
  intro p rest; simp [decodeOperands, encodeOperands, Instr.mnemonic]

theorem pop (d : Reg) : Statement (.pop d) := by
  intro p rest; simp [decodeOperands, encodeOperands, Instr.mnemonic]

theorem calLit (t : Word) : Statement (.calLit t) := by
  intro p rest; simp [decodeOperands, encodeOperands, Instr.mnemonic]

theorem calReg (r : Reg) : Statement (.calReg r) := by
  intro p rest; simp [decodeOperands, encodeOperands, Instr.mnemonic]

theorem ret : Statement .ret := by
  intro p rest; simp [decodeOperands, encodeOperands, Instr.mnemonic]

theorem hlt : Statement .hlt := by
  intro p rest; simp [decodeOperands, encodeOperands, Instr.mnemonic]

end OperandRoundTrip

namespace EncodingLength

/-- The encoding is as long as R77's length column says. -/
def Statement (i : Instr) : Prop := ∀ m : OpcodeMap, (encode m i).length = i.mnemonic.length

theorem movLitReg (v : Word) (d : Reg) : Statement (.movLitReg v d) := fun _ => rfl
theorem movRegReg (r d : Reg) : Statement (.movRegReg r d) := fun _ => rfl
theorem movRegMem (r : Reg) (a : Word) : Statement (.movRegMem r a) := fun _ => rfl
theorem movMemReg (a : Word) (d : Reg) : Statement (.movMemReg a d) := fun _ => rfl
theorem addRegReg (p q : Reg) : Statement (.addRegReg p q) := fun _ => rfl
theorem jmpNotEq (v t : Word) : Statement (.jmpNotEq v t) := fun _ => rfl
theorem pshLit (v : Word) : Statement (.pshLit v) := fun _ => rfl
theorem pshReg (r : Reg) : Statement (.pshReg r) := fun _ => rfl
theorem pop (d : Reg) : Statement (.pop d) := fun _ => rfl
theorem calLit (t : Word) : Statement (.calLit t) := fun _ => rfl
theorem calReg (r : Reg) : Statement (.calReg r) := fun _ => rfl
theorem ret : Statement .ret := fun _ => rfl
theorem hlt : Statement .hlt := fun _ => rfl

end EncodingLength

end Sys2Proof.Laws
end

