-- ==== Sys2Proof/Tests/Slice0.lean ====
section
/-!
SUPPORT. Tests, and the witnesses that the hypotheses of the statements can be met. The expected results are those of
spec/95_test_vectors.md (V<n>, W<n>, P<n>) or, where no vector is named, of the rule cited.
-/

set_option maxRecDepth 100000

namespace Sys2Proof.Tests

open Machine

/-! ### Small states -/

/-- Boot with an image of these bytes over zeroed memories. -/
def booted (cfg : Config) (entry : Word) (offset : Word) (bytes : List Byte) : State :=
  (State.boot cfg entry { Image.default with bytes := bytes, offset := offset } []).getD State.reset

/-- The construction state with these bytes loaded at `a` and IP there, all defaults. -/
def codeAt (a : Word) (bytes : List Byte) : State := booted Config.default a a bytes

/-- The same at address 0 under the policy `mask`. -/
def maskCode (bytes : List Byte) : State := booted { Config.default with ordinals := .mask } 0 0 bytes

/-- These bytes at offset 0 of a memory of `size` bytes, the whole address space but for what it lacks. -/
def smallCode (size : Nat) (bytes : List Byte) : State :=
  booted { Config.default with addressSpace := .mapper (.cons (.memory 0 size) 0x0000 0xFFFF true .nil) } 0 0 bytes

/-- A memory at the top of the address space only, from `start` on. -/
def topOnly (size : Nat) (start : Word) : State :=
  booted { Config.default with addressSpace := .mapper (.cons (.memory 0 size) start 0xFFFF true .nil) } 0 0 []

/-- `s` with a word at an address of the default memory. -/
def withWord (s : State) (a v : Word) : State :=
  s.setSpace { s.space with mem := s.space.mem.writeWord a.toNat v }

/-- A register after a step. -/
def stepReg (s : State) (r : Reg) : Option Word :=
  match step s with
  | .next t => some (t.reg r)
  | .fault _ => none
  | .refused _ => none

/-- `sfs` after a step. -/
def stepSfs (s : State) : Option Word :=
  match step s with
  | .next t => some t.sfs
  | .fault _ => none
  | .refused _ => none

/-- A word of memory after a step. -/
def stepWord (s : State) (a : Word) : Option Word :=
  match step s with
  | .next t => t.wordAt a
  | .fault _ => none
  | .refused _ => none

/-- How a step ended. -/
def stepStatus (s : State) : Option Status :=
  match step s with
  | .next t => some t.status
  | .fault _ => none
  | .refused _ => none

/-- The fault of an outcome. -/
def faultOf : Host.Outcome State Fault Refusal → Option Fault
  | .next _ => none
  | .fault f => some f
  | .refused _ => none

/-- The refusal of an outcome. -/
def refusalOf : Host.Outcome State Fault Refusal → Option Refusal
  | .next _ => none
  | .fault _ => none
  | .refused r => some r

/-- The outcome is a next state. -/
def isNext : Host.Outcome State Fault Refusal → Bool
  | .next _ => true
  | .fault _ => false
  | .refused _ => false

theorem exists_next {o : Host.Outcome State Fault Refusal} (h : isNext o = true) : ∃ t, o = .next t := by
  cases o with
  | next t => exact ⟨t, rfl⟩
  | fault f => cases h
  | refused r => cases h

/-- A next state with a property that can be evaluated. -/
theorem exists_next_with {o : Host.Outcome State Fault Refusal} (p : State → Bool)
    (h : (match o with | .next t => p t | .fault _ => false | .refused _ => false) = true) : ∃ t, o = .next t ∧ p t = true := by
  cases o with
  | next t => exact ⟨t, rfl, h⟩
  | fault f => cases h
  | refused r => cases h

/-! ### WellFormed refuses (R44, R50, R79) -/

theorem test_default_is_wellformed : Config.default.wf = true := by decide
theorem test_opcode_bytes_distinct : OpcodeMap.wf { OpcodeMap.default with ret := 0xFF } = false := by decide
theorem test_opcode_byte_not_marker : OpcodeMap.wf { OpcodeMap.default with pop := 0x00 } = false := by decide
theorem test_opcode_byte_not_EE : OpcodeMap.wf { OpcodeMap.default with hlt := 0xEE } = false := by decide
theorem test_region_not_empty : Device.wf (.mapper (.cons (.memory 0 16) 0x5000 0x5000 true .nil)) = false := by decide
theorem test_nested_region_not_empty :
    Device.wf (.mapper (.cons (.mapper (.cons (.memory 0 16) 5 4 true .nil)) 0x0000 0x00FF true .nil)) = false := by decide
theorem test_memory_has_a_byte : Device.wf (.memory 0 0) = false := by decide
theorem test_memory_at_most_64K : Device.wf (.memory 0 65537) = false := by decide
theorem test_one_memory_one_size :
    Device.sizesAgree (.mapper (.cons (.memory 3 16) 0 1 true (.cons (.memory 3 17) 0 1 true .nil))) = false := by decide
theorem test_illFormed_config_is_refused :
    refusalOf (step { State.reset with cfg := { Config.default with addressSpace := .memory 0 0 } }) =
      some .illFormedConfig := by decide

/-! ### Decoding: words written out from R77 and R79's default map -/

theorem test_decode_movLitReg : decode OpcodeMap.default .fault [0x10, 0x12, 0x34, 0x02] = .ok (.movLitReg 0x1234 .r1, []) := rfl
theorem test_decode_movRegReg : decode OpcodeMap.default .fault [0x11, 0x02, 0x06] = .ok (.movRegReg .r1 .r5, []) := rfl
theorem test_decode_movRegMem : decode OpcodeMap.default .fault [0x12, 0x0A, 0x01, 0x00] = .ok (.movRegMem .sp 0x0100, []) := rfl
theorem test_decode_movMemReg : decode OpcodeMap.default .fault [0x13, 0x01, 0x00, 0x03] = .ok (.movMemReg 0x0100 .r2, []) := rfl
theorem test_decode_addRegReg : decode OpcodeMap.default .fault [0x14, 0x02, 0x03] = .ok (.addRegReg .r1 .r2, []) := rfl
theorem test_decode_jmpNotEq :
    decode OpcodeMap.default .fault [0x15, 0x00, 0x05, 0x00, 0x04] = .ok (.jmpNotEq 0x0005 0x0004, []) := rfl
theorem test_decode_pshLit : decode OpcodeMap.default .fault [0x17, 0xAB, 0xCD] = .ok (.pshLit 0xABCD, []) := rfl
theorem test_decode_pshReg : decode OpcodeMap.default .fault [0x18, 0x03] = .ok (.pshReg .r2, []) := rfl
theorem test_decode_pop : decode OpcodeMap.default .fault [0x1A, 0x04] = .ok (.pop .r3, []) := rfl
theorem test_decode_calLit : decode OpcodeMap.default .fault [0x5E, 0x30, 0x00] = .ok (.calLit 0x3000, []) := rfl
theorem test_decode_calReg : decode OpcodeMap.default .fault [0x5F, 0x0B] = .ok (.calReg .fp, []) := rfl
theorem test_decode_ret : decode OpcodeMap.default .fault [0x60] = .ok (.ret, []) := rfl
theorem test_decode_hlt : decode OpcodeMap.default .fault [0xFF] = .ok (.hlt, []) := rfl
/-- The table's numbering: `15 00 05 00 04` has its first byte in bits 7..0. -/
theorem test_decode_table_word : decodeTableWord 40 0x0400050015 = some (.jmpNotEq 0x0005 0x0004) := by decide
/-- Bits from `nbits` on are zero: only the opcode of `10 12 34 02` is left. -/
theorem test_decode_table_word_short : decodeTableWord 8 0x02341210 = some (.movLitReg 0x0000 .ip) := by decide
theorem test_fetch_table_word : stepReg (State.reset.withFetchWord 32 0x02341210) .r1 = some 0x1234 := by decide

/-! ### One step -/

/-- V1. -/
theorem test_movLitReg : stepReg (codeAt 0 [0x10, 0x12, 0x34, 0x02]) .r1 = some 0x1234 := by decide
/-- V2: a move to IP is a jump. -/
theorem test_movLitReg_ip : stepReg (codeAt 0 [0x10, 0x01, 0x00, 0x00]) .ip = some 0x0100 := by decide
/-- V4: the first operand is the source. -/
theorem test_movRegReg : stepReg ((codeAt 0 [0x11, 0x02, 0x06]).setReg .r1 0xBEEF) .r5 = some 0xBEEF := by decide
/-- V5: IP reads as A + 3. -/
theorem test_movRegReg_ip : stepReg (codeAt 0 [0x11, 0x00, 0x02]) .r1 = some 0x0003 := by decide
/-- V8: high byte first. -/
theorem test_movRegMem : stepWord ((codeAt 0 [0x12, 0x02, 0x01, 0x00]).setReg .r1 0x1234) 0x0100 = some 0x1234 := by decide
/-- V12. -/
theorem test_movRegMem_top :
    faultOf (step (codeAt 0 [0x12, 0x02, 0xFF, 0xFF])) = some (.addressRange 0xFFFF .write16) := by decide
/-- V15: it reads its own first two bytes. -/
theorem test_movMemReg : stepReg (codeAt 0 [0x13, 0x00, 0x00, 0x02]) .r1 = some 0x1300 := by decide
/-- V16. -/
theorem test_movMemReg_top :
    faultOf (step (codeAt 0 [0x13, 0xFF, 0xFF, 0x02])) = some (.addressRange 0xFFFF .read16) := by decide
/-- V20. -/
theorem test_addRegReg :
    stepReg (((codeAt 0 [0x14, 0x02, 0x03]).setReg .r1 0x1234).setReg .r2 0xABCD) .acc = some 0xBE01 := by decide
/-- V21: wraps, no trap. -/
theorem test_addRegReg_wraps :
    stepReg (((codeAt 0 [0x14, 0x02, 0x03]).setReg .r1 0xFFFF).setReg .r2 0x0001) .acc = some 0x0000 := by decide
/-- V30. -/
theorem test_jmpNotEq_taken : stepReg (codeAt 0 [0x15, 0x00, 0x01, 0x00, 0x40]) .ip = some 0x0040 := by decide
/-- V31. -/
theorem test_jmpNotEq_not_taken :
    stepReg ((codeAt 0 [0x15, 0x00, 0x01, 0x00, 0x40]).setReg .acc 0x0001) .ip = some 0x0005 := by decide
/-- V41: SP wraps. -/
theorem test_pshLit :
    let s := (codeAt 0x0100 [0x17, 0xAB, 0xCD]).setReg .sp 0x0000
    stepWord s 0x0000 = some 0xABCD ∧ stepReg s .sp = some 0xFFFE ∧ stepSfs s = some 2 := by decide
/-- V42. -/
theorem test_pshLit_top :
    faultOf (step ((codeAt 0 [0x17, 0xAB, 0xCD]).setReg .sp 0xFFFF)) = some (.addressRange 0xFFFF .write16) := by decide
/-- V44: SP before the push. -/
theorem test_pshReg_sp :
    let s := codeAt 0 [0x18, 0x0A]
    stepWord s 0xFFFE = some 0xFFFE ∧ stepReg s .sp = some 0xFFFC := by decide
/-- V46. -/
theorem test_pop :
    let s := withWord (((codeAt 0 [0x1A, 0x04]).setReg .sp 0xFFFC).setSfs 2) 0xFFFE 0x3333
    stepReg s .r3 = some 0x3333 ∧ stepReg s .sp = some 0xFFFE ∧ stepSfs s = some 0 := by decide
/-- V48: the popped word overwrites the pop's own increment. -/
theorem test_pop_sp :
    stepReg (withWord ((codeAt 0 [0x1A, 0x0A]).setReg .sp 0xFFFC) 0xFFFE 0x4000) .sp = some 0x4000 := by decide
/-- V60: R1 on top, the return address and the saved size below. -/
theorem test_calLit :
    let s := ((codeAt 0 [0x5E, 0x04, 0x00]).setReg .r1 1).setReg .r8 8
    stepReg s .ip = some 0x0400 ∧ stepReg s .fp = some 0xFFEA ∧ stepWord s 0xFFFE = some 1 ∧
      stepWord s 0xFFF0 = some 8 ∧ stepWord s 0xFFEE = some 0x0003 ∧ stepWord s 0xFFEC = some 0x0014 := by decide +kernel
/-- V61: SP is read before the frame is pushed. -/
theorem test_calReg_sp : stepReg (codeAt 0 [0x5F, 0x0A]) .ip = some 0xFFFE := by decide +kernel
/-- V64: a frame of zeros. -/
theorem test_ret_zero_frame :
    let s := ((codeAt 0x0100 [0x60]).setReg .sp 0xFFE8).setReg .fp 0xFFE8
    stepReg s .ip = some 0 ∧ stepReg s .sp = some 0xFFFE ∧ stepReg s .fp = some 0xFFE8 ∧ stepSfs s = some 0xFFEC := by decide +kernel
/-- P5, the first return, its frame and two arguments. -/
theorem test_ret_discards_arguments :
    let s := withWord (withWord (withWord (((codeAt 0x0104 [0x60]).setReg .sp 0xFFE4).setReg .fp 0xFFE4)
      0xFFE6 0x001A) 0xFFE8 0x000F) 0xFFFA 0x0002
    stepReg s .ip = some 0x000F ∧ stepReg s .sp = some 0xFFFE ∧ stepReg s .fp = some 0xFFFE ∧ stepSfs s = some 2 := by decide +kernel
/-- V70. -/
theorem test_hlt : stepStatus (codeAt 0 [0xFF]) = some .halted ∧ stepReg (codeAt 0 [0xFF]) .ip = some 1 := by decide
/-- V71. -/
theorem test_zero_byte : stepStatus (codeAt 0 [0x00]) = some (.endOfProgram 0x0000) := by decide
/-- V73. -/
theorem test_unknown_byte : faultOf (step (codeAt 0 [0x16])) = some (.unknownOpcode 0x16 0x0000) := by decide
/-- V74. -/
theorem test_invalid_ordinal : faultOf (step (codeAt 0 [0x11, 0x0C, 0x02])) = some (.invalidRegister 0x0C 0x0001) := by decide
/-- V78: 0xFF modulo 12 is R2. -/
theorem test_masked_ordinal : stepReg ((maskCode [0x11, 0x02, 0xFF]).setReg .r1 0x7777) .r2 = some 0x7777 := by decide
/-- V91. -/
theorem test_literal_not_backed : faultOf (step (smallCode 2 [0x17, 0x12])) = some (.addressRange 0x0001 .fetch16) := by decide

/-! ### Devices -/

/-- V97, V98: D over M at 0x3000. -/
def shadowed : Device :=
  .mapper (.cons (.memory 1 0x100) 0x3000 0x30FF true (.cons (.memory 0 65536) 0x0000 0xFFFF true .nil))

/-- V99. -/
def nested : Device :=
  .mapper (.cons (.mapper (.cons (.memory 0 0x100) 0x0000 0x00FF true .nil)) 0x4000 0x40FF true .nil)

/-- Contents before any write. -/
def blank : DeviceState := { mem := [], trace := [] }

/-- W2. -/
theorem test_mapper_translates :
    shadowed.writeU16 0x3010 0xCAFE blank = some ⟨[(cellKey 1 0x10, 0xCA), (cellKey 1 0x11, 0xFE)], []⟩ := by decide
/-- V94: without remap the offset is the address. -/
theorem test_mapper_no_remap :
    Device.writeU16 (.mapper (.cons (.memory 2 0x4000) 0x1000 0x1FFF false .nil)) 0x1000 0xBEEF blank =
      some ⟨[(cellKey 2 0x1000, 0xBE), (cellKey 2 0x1001, 0xEF)], []⟩ := by decide
/-- V96: a failure does not fall through to an older region. -/
theorem test_mapper_no_fall_through :
    Device.readU8 (.mapper (.cons (.memory 2 0x100) 0x2000 0x20FF false (.cons (.memory 0 65536) 0 0xFFFF true .nil)))
      0x2000 blank = none := by decide
/-- V97. -/
theorem test_straddle_fails : shadowed.writeU16 0x30FF 0x1111 blank = none := by decide
/-- V98. -/
theorem test_straddle_stays :
    shadowed.writeU16 0x2FFF 0xAABB blank = some ⟨[(cellKey 0 0x2FFF, 0xAA), (cellKey 0 0x3000, 0xBB)], []⟩ := by decide
/-- V99. -/
theorem test_nested_mapper :
    nested.writeU16 0x4010 0x1234 blank = some ⟨[(cellKey 0 0x10, 0x12), (cellKey 0 0x11, 0x34)], []⟩ := by decide
/-- V100. -/
theorem test_map_refuses : mapRegion (.memory 0 1) 0x5000 0x5000 true .nil = none := by decide

/-- R8, R162, R68: the default offset, and the default primary device; with no image boot is the construction. -/
theorem test_image_default :
    Image.default.offset = 0x0000 ∧ Device.default.memorySize Image.default.primary = 65536 ∧
    State.boot Config.default Config.defaultEntry Image.default [] = some State.reset := by decide
/-- Log 27: an image that ends one byte past its device boots nothing. -/
theorem test_image_does_not_fit :
    State.boot Config.default 0 { Image.default with bytes := [1, 2], offset := 0xFFFF } [] = none := by decide

/-! ### Witnesses: the hypotheses of the statements can be met

One theorem per statement that has hypotheses, one clause per clause of the statement, at a boundary value where it has
a range. -/

/-- A word operand read at `a`, and a state where the opcode is fetched and the word at `a` cannot be. -/
abbrev WordMet (k : Mnemonic) (s : State) (a v : Word) (lost : State) : Prop :=
  s.cfg.addressSpace.readU16 a s.space = some (v, s.space) ∧
  AtOpcode lost k 0 lost.space ∧ lost.cfg.addressSpace.readU16 a lost.space = none

/-- A register operand read at `a` under each policy, an ordinal of 12 there under `fault`, and a state where the opcode is
fetched and the byte at `a` cannot be. -/
abbrev RegMet (k : Mnemonic) (s : State) (a : Word) (r : Reg) (bad masked lost : State) : Prop :=
  (∃ b, s.cfg.addressSpace.readU8 a s.space = some (b, s.space) ∧ Names s.cfg.ordinals b r) ∧
  (AtOpcode bad k 0 bad.space ∧ bad.cfg.addressSpace.readU8 a bad.space = some (0x0C, bad.space) ∧
    bad.cfg.ordinals = .fault ∧ 12 ≤ (0x0C : Byte).toNat) ∧
  (AtOpcode masked k 0 masked.space ∧ masked.cfg.addressSpace.readU8 a masked.space = some (0x0C, masked.space) ∧
    Names masked.cfg.ordinals 0x0C .ip) ∧
  AtOpcode lost k 0 lost.space ∧ lost.cfg.addressSpace.readU8 a lost.space = none

theorem witness_MovLitRegLoadsLiteral :
    let s := codeAt 0 [0x10, 0x12, 0x34, 0x02]
    AtOpcode s .movLitReg 0 s.space ∧ WordMet .movLitReg s 1 0x1234 (smallCode 2 [0x10]) ∧
    RegMet .movLitReg s 3 .r1 (codeAt 0 [0x10, 0, 0, 0x0C]) (maskCode [0x10, 0, 0, 0x0C]) (smallCode 3 [0x10]) :=
  ⟨by decide, by decide, ⟨_, rfl, by decide⟩, by decide, by decide, by decide⟩

theorem witness_MovRegRegCopiesSource :
    let s := codeAt 0 [0x11, 0x02, 0x06]
    AtOpcode s .movRegReg 0 s.space ∧
    RegMet .movRegReg s 1 .r1 (codeAt 0 [0x11, 0x0C]) (maskCode [0x11, 0x0C]) (smallCode 1 [0x11]) ∧
    RegMet .movRegReg s 2 .r5 (codeAt 0 [0x11, 0, 0x0C]) (maskCode [0x11, 0, 0x0C]) (smallCode 2 [0x11]) :=
  ⟨by decide, ⟨⟨_, rfl, by decide⟩, by decide, by decide, by decide⟩, ⟨_, rfl, by decide⟩, by decide, by decide, by decide⟩

/-- The word at 0xFFFF cannot be written, the one at 0xFFFE can. -/
theorem witness_MovRegMemStoresWord :
    let s := codeAt 0 [0x12, 0x02, 0xFF, 0xFE]
    AtOpcode s .movRegMem 0 s.space ∧
    RegMet .movRegMem s 1 .r1 (codeAt 0 [0x12, 0x0C]) (maskCode [0x12, 0x0C]) (smallCode 1 [0x12]) ∧
    WordMet .movRegMem s 2 0xFFFE (smallCode 3 [0x12]) ∧
    s.cfg.addressSpace.writeU16 0xFFFF 0 s.space = none ∧ (s.cfg.addressSpace.writeU16 0xFFFE 0 s.space).isSome = true ∧
    s.cfg.addressSpace.wordCell 0xFFFE = some 0xFFFE :=
  ⟨by decide, ⟨⟨_, rfl, by decide⟩, by decide, by decide, by decide⟩, by decide, by decide, by decide, by decide⟩

theorem witness_MovMemRegLoadsWord :
    let s := codeAt 0 [0x13, 0xFF, 0xFE, 0x03]
    AtOpcode s .movMemReg 0 s.space ∧ WordMet .movMemReg s 1 0xFFFE (smallCode 2 [0x13]) ∧
    RegMet .movMemReg s 3 .r2 (codeAt 0 [0x13, 0, 0, 0x0C]) (maskCode [0x13, 0, 0, 0x0C]) (smallCode 3 [0x13]) ∧
    s.cfg.addressSpace.readU16 0xFFFF s.space = none ∧ s.cfg.addressSpace.readU16 0xFFFE s.space = some (0, s.space) ∧
    s.cfg.addressSpace.wordCell 0xFFFE = some 0xFFFE :=
  ⟨by decide, by decide, ⟨⟨_, rfl, by decide⟩, by decide, by decide, by decide⟩, by decide, by decide, by decide⟩

theorem witness_AddRegRegSumsIntoAcc :
    let s := codeAt 0 [0x14, 0x02, 0x03]
    AtOpcode s .addRegReg 0 s.space ∧
    RegMet .addRegReg s 1 .r1 (codeAt 0 [0x14, 0x0C]) (maskCode [0x14, 0x0C]) (smallCode 1 [0x14]) ∧
    RegMet .addRegReg s 2 .r2 (codeAt 0 [0x14, 0, 0x0C]) (maskCode [0x14, 0, 0x0C]) (smallCode 2 [0x14]) :=
  ⟨by decide, ⟨⟨_, rfl, by decide⟩, by decide, by decide, by decide⟩, ⟨_, rfl, by decide⟩, by decide, by decide, by decide⟩

theorem witness_JmpNotEqBranches :
    let s := codeAt 0 [0x15, 0x00, 0x01, 0x00, 0x40]
    AtOpcode s .jmpNotEq 0 s.space ∧ WordMet .jmpNotEq s 1 0x0001 (smallCode 2 [0x15]) ∧
    WordMet .jmpNotEq s 3 0x0040 (smallCode 4 [0x15]) ∧ s.reg .acc ≠ 0x0001 ∧ (s.setReg .acc 1).reg .acc = 0x0001 := by decide

/-- V32. -/
theorem witness_JmpNotEqToItselfHangs :
    let s := codeAt 0 [0x15, 0x00, 0x01, 0x00, 0x00]
    s.cfg.wf = true ∧ s.status = .running ∧ s.reg .acc ≠ 0x0001 ∧
    CodeAt s .jmpNotEq (s.reg .ip) (encode s.cfg.opcodes (.jmpNotEq 0x0001 (s.reg .ip))) := by decide

theorem witness_PushWritesThenLowersSP :
    let s := State.reset
    let top := s.setReg .sp 0xFFFF
    (s.cfg.addressSpace.writeU16 (s.reg .sp) 7 s.space).isSome = true ∧
    top.cfg.addressSpace.writeU16 (top.reg .sp) 7 top.space = none := by decide

theorem witness_PopRaisesSPThenReads :
    let s := State.reset
    let top := s.setReg .sp 0xFFFD
    s.cfg.addressSpace.readU16 (s.reg .sp + 2) s.space = some (0, s.space) ∧
    top.cfg.addressSpace.readU16 (top.reg .sp + 2) top.space = none := by decide

/-- Both orders of the two words: SP = 0xFFFE, and SP = 0 where the second push wraps. -/
theorem witness_PushPushPopPopIsLifo :
    let s := State.reset
    let z := s.setReg .sp 0
    (s.cfg.addressSpace.wordCell (s.reg .sp) = some 0xFFFE ∧ s.cfg.addressSpace.wordCell (s.reg .sp - 2) = some 0xFFFC ∧
      0xFFFC + 1 < 0xFFFE) ∧
    z.cfg.addressSpace.wordCell (z.reg .sp) = some 0 ∧ z.cfg.addressSpace.wordCell (z.reg .sp - 2) = some 0xFFFE ∧
      0 + 1 < 0xFFFE := by decide

/-- The keys of the words from 0xFFFE downward in the default memory. -/
def topCell (j : Nat) : Nat := 0xFFFE - 2 * j

theorem topCell_apart {n : Nat} (hn : n ≤ 100) (i j : Nat) (h : i < j) (hj : j < n) :
    topCell i + 1 < topCell j ∨ topCell j + 1 < topCell i := by
  simp only [topCell]; omega

theorem witness_PushesLieDownward :
    (∀ j, j < [1, 2, 3].length → State.reset.cfg.addressSpace.wordCell (pushAddr State.reset j) = some (topCell j)) ∧
    ∀ i j, i < j → j < [1, 2, 3].length → topCell i + 1 < topCell j ∨ topCell j + 1 < topCell i :=
  ⟨by decide, topCell_apart (by decide)⟩

theorem witness_PshLitPushesLiteral :
    let s := codeAt 0 [0x17, 0x33, 0x33]
    let top := s.setReg .sp 0xFFFF
    AtOpcode s .pshLit 0 s.space ∧ WordMet .pshLit s 1 0x3333 (smallCode 2 [0x17]) ∧
    (s.cfg.addressSpace.writeU16 (s.reg .sp) 0x3333 s.space).isSome = true ∧
    top.cfg.addressSpace.writeU16 (top.reg .sp) 0x3333 top.space = none := by decide

theorem witness_PshRegPushesRegister :
    let s := codeAt 0 [0x18, 0x03]
    let top := s.setReg .sp 0xFFFF
    AtOpcode s .pshReg 0 s.space ∧
    RegMet .pshReg s 1 .r2 (codeAt 0 [0x18, 0x0C]) (maskCode [0x18, 0x0C]) (smallCode 1 [0x18]) ∧
    (s.cfg.addressSpace.writeU16 (s.reg .sp) (s.reg .r2) s.space).isSome = true ∧
    top.cfg.addressSpace.writeU16 (top.reg .sp) (top.reg .r2) top.space = none :=
  ⟨by decide, ⟨⟨_, rfl, by decide⟩, by decide, by decide, by decide⟩, by decide, by decide⟩

theorem witness_PopLoadsPoppedWord :
    let s := codeAt 0 [0x1A, 0x04]
    let top := s.setReg .sp 0xFFFD
    AtOpcode s .pop 0 s.space ∧
    RegMet .pop s 1 .r3 (codeAt 0 [0x1A, 0x0C]) (maskCode [0x1A, 0x0C]) (smallCode 1 [0x1A]) ∧
    (s.cfg.addressSpace.readU16 (s.reg .sp + 2) s.space).isSome = true ∧
    top.cfg.addressSpace.readU16 (top.reg .sp + 2) top.space = none ∧ Reg.r3 ≠ .sp :=
  ⟨by decide, ⟨⟨_, rfl, by decide⟩, by decide, by decide, by decide⟩, by decide, by decide, by decide⟩

/-- Writes to the frame words of the construction state. -/
theorem frame_writes (s : State) (hc : s.cfg = Config.default) (hs : s.reg .sp = 0xFFFE) :
    ServicedWrites s.cfg.addressSpace 10 (pushAddr s) (frameWord s) (cellStates topCell (frameWord s) s.space) := by
  refine servicedWrites_of_wordCells s.space ?_
  simp only [hc, pushAddr, hs]
  decide

/-- A memory of 18 bytes at the top holds nine of the ten frame words. -/
theorem nine_writes (s : State) (hs : s.cfg = (topOnly 18 0xFFEE).cfg) (hsp : s.reg .sp = 0xFFFE) :
    ServicedWrites s.cfg.addressSpace 9 (pushAddr s) (frameWord s) (cellStates (fun j => 16 - 2 * j) (frameWord s) s.space) ∧
    ∀ v σ, s.cfg.addressSpace.writeU16 (pushAddr s 9) v σ = none := by
  refine ⟨servicedWrites_of_wordCells s.space ?_, fun v σ => ?_⟩
  · simp only [hs, pushAddr, hsp]; decide
  · simp only [hs, pushAddr, hsp]; rfl

/-- The first push fails at SP = 0xFFFF, the tenth in a memory of 18 bytes. -/
theorem witness_CalLitSavesFrameAndJumps :
    (∃ σ, σ 0 = State.reset.space ∧ ServicedWrites State.reset.cfg.addressSpace 10 (pushAddr State.reset) (frameWord State.reset) σ) ∧
    (let s := State.reset.setReg .sp 0xFFFF
     s.cfg.addressSpace.writeU16 (pushAddr s 0) (frameWord s 0) s.space = none) ∧
    (let s := topOnly 18 0xFFEE
     ∃ σ, σ 0 = s.space ∧ ServicedWrites s.cfg.addressSpace 9 (pushAddr s) (frameWord s) σ ∧
       s.cfg.addressSpace.writeU16 (pushAddr s 9) (frameWord s 9) (σ 9) = none) ∧
    (let s := codeAt 0 [0x5E, 0x30, 0x00]
     AtOpcode s .calLit 0 s.space ∧ WordMet .calLit s 1 0x3000 (smallCode 2 [0x5E])) :=
  ⟨⟨_, rfl, frame_writes _ rfl rfl⟩, by decide,
   ⟨_, rfl, (nine_writes _ rfl rfl).1, (nine_writes (topOnly 18 0xFFEE) rfl rfl).2 _ _⟩, by decide⟩

theorem witness_CalRegSavesFrameAndJumps :
    (∃ σ, σ 0 = State.reset.space ∧ ServicedWrites State.reset.cfg.addressSpace 10 (pushAddr State.reset) (frameWord State.reset) σ) ∧
    (let s := State.reset.setReg .sp 0xFFFF
     s.cfg.addressSpace.writeU16 (pushAddr s 0) (frameWord s 0) s.space = none) ∧
    (let s := topOnly 18 0xFFEE
     ∃ σ, σ 0 = s.space ∧ ServicedWrites s.cfg.addressSpace 9 (pushAddr s) (frameWord s) σ ∧
       s.cfg.addressSpace.writeU16 (pushAddr s 9) (frameWord s 9) (σ 9) = none) ∧
    (let s := codeAt 0 [0x5F, 0x0B]
     AtOpcode s .calReg 0 s.space ∧
     RegMet .calReg s 1 .fp (codeAt 0 [0x5F, 0x0C]) (maskCode [0x5F, 0x0C]) (smallCode 1 [0x5F])) :=
  ⟨⟨_, rfl, frame_writes _ rfl rfl⟩, by decide,
   ⟨_, rfl, (nine_writes _ rfl rfl).1, (nine_writes (topOnly 18 0xFFEE) rfl rfl).2 _ _⟩,
   ⟨by decide, ⟨_, rfl, by decide⟩, by decide, by decide, by decide⟩⟩

/-- A return over a memory that answers each pop: the words are those it holds. -/
def heldWord (s : State) (j : Nat) : Word := (s.wordAt (popAddr s j)).getD 0

/-- The pops of a return, each answered from the memory as it stands. -/
theorem reads_held {s : State} (n : Nat) (hn : (heldWord s 10).toNat = n)
    (h : ∀ j, j < 11 + n → s.cfg.addressSpace.readU16 (popAddr s j) s.space = some (heldWord s j, s.space)) :
    ServicedReads s.cfg.addressSpace (11 + (heldWord s 10).toNat) (popAddr s) (heldWord s) fun _ => s.space := by
  rw [hn]
  exact h

/-- V64's frame of zeros (no argument), and one argument at the top of the default memory. The first pop fails at
FP = 0xFFFD, and the twelfth, the discard of an argument, where the memory ends at the count word. -/
theorem witness_RetRestoresFrame :
    (let s := State.reset.setReg .fp 0xFFE8
     ServicedReads s.cfg.addressSpace (11 + (heldWord s 10).toNat) (popAddr s) (heldWord s) fun _ => s.space) ∧
    (let s := withWord (State.reset.setReg .fp 0xFFE6) 0xFFFC 1
     (heldWord s 10).toNat = 1 ∧
     ServicedReads s.cfg.addressSpace (11 + (heldWord s 10).toNat) (popAddr s) (heldWord s) fun _ => s.space) ∧
    (let s := State.reset.setReg .fp 0xFFFD
     s.cfg.addressSpace.readU16 (popAddr s 0) s.space = none) ∧
    (let s := withWord ((topOnly 22 0xFFEA).setReg .fp 0xFFE8) 20 1
     (heldWord s 10).toNat = 1 ∧
     (∀ j, j < 11 → s.cfg.addressSpace.readU16 (popAddr s j) s.space = some (heldWord s j, s.space)) ∧
     s.cfg.addressSpace.readU16 (popAddr s 11) s.space = none) ∧
    (let s := codeAt 0x0100 [0x60]
     AtOpcode s .ret 0x0100 s.space) :=
  ⟨reads_held 0 (by decide +kernel) (by decide +kernel),
   ⟨by decide +kernel, reads_held 1 (by decide +kernel) (by decide +kernel)⟩, by decide +kernel, by decide +kernel, by decide⟩

theorem witness_CallLaysOutFrame :
    (∀ j, j < 10 → State.reset.cfg.addressSpace.wordCell (pushAddr State.reset j) = some (topCell j)) ∧
    ∀ j l, j < l → l < 10 → topCell j + 1 < topCell l ∨ topCell l + 1 < topCell j :=
  ⟨by decide, topCell_apart (by decide)⟩

/-- One argument above the count word at 0xFFFC; `u` is the state right after the call. -/
theorem witness_CallThenReturnRoundTrips :
    let s := withWord (State.reset.setReg .sp 0xFFFA) 0xFFFC 1
    (∀ j, j < 11 → s.cfg.addressSpace.wordCell (s.reg .sp + 2 - BitVec.ofNat 16 (2 * j)) = some (topCell (j + 1))) ∧
    (∀ j l, j < l → l < 11 → topCell (j + 1) + 1 < topCell (l + 1) ∨ topCell (l + 1) + 1 < topCell (j + 1)) ∧
    s.wordAt (s.reg .sp + 2) = some 1 ∧
    ∃ c, exec (.calLit 0x0400) s = .next c ∧ (c.wordAt (popAddr c (11 + 0))).isSome = true :=
  ⟨by decide, fun j l h hl => topCell_apart (n := 12) (by decide) _ _ (by omega) (by omega), by decide,
   exists_next_with _ (by decide +kernel)⟩

theorem witness_FrameBalanceDrifts :
    (∃ t, exec (.calLit 4) State.reset = .next t) ∧ (∃ t, exec (.calReg .sp) State.reset = .next t) ∧
    (∃ t, exec .ret State.reset = .next t) ∧ (∃ t, exec (.pop .r1) State.reset = .next t) ∧
    ∀ d, d = Reg.sp ∨ d = Reg.fp → Instr.pop .r1 ≠ .pop d :=
  ⟨exists_next (by decide +kernel), exists_next (by decide +kernel), exists_next (by decide +kernel),
   exists_next (by decide), by rintro d (rfl | rfl) <;> decide⟩

theorem witness_HltHalts : let s := codeAt 0xFFFF [0xFF]; AtOpcode s .hlt 0xFFFF s.space := by decide

theorem witness_ZeroByteEndsProgram : AtByte State.reset 0x00 0 State.reset.space := by decide

theorem witness_UnknownByteFaults :
    let s := codeAt 0 [0x16]
    let e := codeAt 0 [0xEE]
    AtByte s 0x16 0 s.space ∧ (0x16 : Byte) ≠ 0x00 ∧ (∀ k, s.cfg.opcodes.byte k ≠ 0x16) ∧ AtByte e 0xEE 0 e.space :=
  ⟨by decide, by decide, fun k => by cases k <;> decide, by decide⟩

/-- V93. -/
theorem witness_UnreadableOpcodeFaults :
    let s := booted { Config.default with addressSpace := .mapper .nil } 0 0 []
    s.cfg.wf = true ∧ s.status = .running ∧ s.cfg.addressSpace.readU8 (s.reg .ip) s.space = none := by decide

theorem witness_NoStepWithoutRun :
    { Config.default with addressSpace := Device.memory 0 0 }.wf = false ∧ State.reset.cfg.wf = true ∧
    (State.reset.setStatus .halted).status ≠ .running ∧ (State.reset.setStatus (.endOfProgram 0)).status ≠ .running := by decide

/-- The longest instruction at the top of the address space, and one under the policy `mask`. -/
theorem witness_StepRunsDecodedInstruction :
    (let code := [0x15, 0x00, 0x01, 0x00, 0x40]
     let s := codeAt 0xFFFB code
     s.cfg.wf = true ∧ s.status = .running ∧ decode s.cfg.opcodes s.cfg.ordinals code = .ok (.jmpNotEq 1 0x40, []) ∧
       CodeAt s .jmpNotEq (s.reg .ip) code) ∧
    (let code := [0x11, 0x02, 0x0D]
     let s := maskCode code
     s.cfg.wf = true ∧ s.status = .running ∧ decode s.cfg.opcodes s.cfg.ordinals code = .ok (.movRegReg .r1 .acc, []) ∧
       CodeAt s .movRegReg (s.reg .ip) code) :=
  ⟨⟨by decide, rfl, rfl, by decide⟩, ⟨by decide, rfl, rfl, by decide⟩⟩

theorem witness_FetchWordIsNextInstruction :
    let s := State.reset.setReg .ip 0xFFFB
    s.cfg.addressSpace = Device.default ∧ s.cfg.ordinals = .fault ∧ (s.reg .ip).toNat + 5 ≤ 65536 ∧
    decodeTableWord 40 0x4000010015 = some (.jmpNotEq 0x0001 0x0040) := by decide

theorem witness_DecodeOfEncode : OpcodeMap.default.wf = true := by decide

theorem witness_EncodeOfDecode : decode OpcodeMap.default .fault [0x60, 0x07] = .ok (.ret, [0x07]) := rfl

theorem witness_OpcodeByteSelects : OpcodeMap.default.wf = true := by decide

theorem witness_IllegalOpcodeBytesNumber242 : OpcodeMap.default.wf = true := by decide

theorem witness_FetchHelpersReadAtIP :
    let s := codeAt 0 [0x0B]
    let top := State.reset.setReg .ip 0xFFFF
    let bad := codeAt 0 [0x0C]
    let masked := maskCode [0xFF]
    let none := smallCode 1 [0x10]
    s.cfg.addressSpace.readU8 0 s.space = some (0x0B, s.space) ∧ Names s.cfg.ordinals 0x0B .fp ∧
    (s.cfg.addressSpace.readU16 0 s.space).isSome = true ∧ top.cfg.addressSpace.readU16 (top.reg .ip) top.space = .none ∧
    bad.cfg.ordinals = .fault ∧ bad.cfg.addressSpace.readU8 0 bad.space = some (0x0C, bad.space) ∧
    masked.cfg.addressSpace.readU8 0 masked.space = some (0xFF, masked.space) ∧ Names masked.cfg.ordinals 0xFF .r2 ∧
    none.cfg.addressSpace.readU8 1 none.space = .none := by decide

/-- The last serviced byte and word of a memory of 256 bytes, and the first ones that are not. -/
theorem witness_PlainMemoryIsBigEndianArray :
    let d := Device.memory 0 256
    (d.writeU8 0xFF 7 blank).isSome = true ∧ d.writeU8 0x100 7 blank = none ∧
    (d.writeU16 0xFE 7 blank).isSome = true ∧ d.writeU16 0xFF 7 blank = none := by decide

theorem witness_MixedWidthViewsAgree :
    shadowed.wordCell 0x30FE = some (cellKey 1 0xFE) ∧ shadowed.byteCell (0x30FE + 1) = some (cellKey 1 0xFE + 1) := by decide

/-- Both ends of the region, and the addresses next to them. -/
theorem witness_MapperForwardsToFirstRegion :
    ((0x3000 : Word) ≤ 0x3000 ∧ (0x3000 : Word) ≤ 0x30FF) ∧ ((0x3000 : Word) ≤ 0x30FF ∧ (0x30FF : Word) ≤ 0x30FF) ∧
    ¬ ((0x3000 : Word) ≤ 0x2FFF ∧ (0x2FFF : Word) ≤ 0x30FF) ∧ ¬ ((0x3000 : Word) ≤ 0x3100 ∧ (0x3100 : Word) ≤ 0x30FF) := by decide

/-- Two regions apart: the address lies in exactly one, at its start and at its last word. -/
theorem witness_WriteThenReadThroughMapper :
    let rs := Regions.cons (.peripheral 9) 0x0000 0x00FF true (.cons (.memory 1 0x100) 0x3000 0x30FF true .nil)
    (regionList rs).filter (fun r => inRegion r.start r.last 0x3000) = [⟨.memory 1 0x100, 0x3000, 0x30FF, true⟩] ∧
    (regionList rs).filter (fun r => inRegion r.start r.last 0x30FE) = [⟨.memory 1 0x100, 0x3000, 0x30FF, true⟩] ∧
    ((Device.mapper rs).writeU16 0x3000 0xCAFE blank).isSome = true ∧
    ((Device.mapper rs).writeU16 0x30FE 0xCAFE blank).isSome = true := by decide

/-- V97 and V98: the last byte of the region mapped last, whose memory ends with it, and the byte before that region, whose
memory goes on under it. -/
theorem witness_StraddlingAccessStaysOnFirstDevice :
    let rs := Regions.cons (.memory 1 0x100) 0x3000 0x30FF true (.cons (.memory 0 65536) 0x0000 0xFFFF true .nil)
    (regionList rs).find? (fun r => inRegion r.start r.last 0x30FF) = some ⟨.memory 1 0x100, 0x3000, 0x30FF, true⟩ ∧
    0x100 ≤ (0x30FF : Word).toNat - (0x3000 : Word).toNat + 1 ∧
    (regionList rs).find? (fun r => inRegion r.start r.last 0x2FFF) = some ⟨.memory 0 65536, 0x0000, 0xFFFF, true⟩ ∧
    (0x2FFF : Word).toNat - (0x0000 : Word).toNat + 1 < 65536 := by decide

theorem witness_MapRefusesEmptyRange :
    (mapRegion (.memory 0 1) 4 5 true .nil).isSome = true ∧ Device.wf (.memory 0 1) = true ∧ Regions.wf .nil = true := by decide

theorem witness_DefaultSpaceIsFlatMemory : (0xFFFE : Word) ≠ 0xFFFF := by decide

/-- The bytes 0x0B and 0x0C, a register's ordinal and none, stored at the last word of memory, and fetched from. -/
theorem witness_StoreIsSeenByNextFetch :
    let s := State.reset.setReg .r1 0x0B0C
    s.cfg.addressSpace.wordCell 0xFFFE = some 0xFFFE ∧ s.cfg.addressSpace.byteCell 0xFFFF = some 0xFFFF ∧
    s.cfg.addressSpace.wordCell 0xFFFD = some 0xFFFD ∧
    Names s.cfg.ordinals (hi8 (s.reg .r1)) .fp ∧ s.cfg.ordinals = .fault ∧ 12 ≤ (lo8 (s.reg .r1)).toNat ∧
    ∃ t, exec (.movRegMem .r1 0xFFFE) s = .next t ∧ ∀ a, let u := t.setReg .ip a
      u.space = t.space ∧ u.cfg = s.cfg ∧ u.reg .ip = a :=
  ⟨by decide, by decide, by decide, by decide, rfl, by decide, _, rfl, fun _ => ⟨rfl, rfl, rfl⟩⟩

/-- An image that ends with its device, one byte more, and one for a device that the tree does not have. -/
theorem witness_LoadImagePlacesBytes :
    let d := Device.default
    let img : Image := { bytes := [1, 2, 3], offset := 0xFFFD, primary := 0 }
    img.offset.toNat + img.bytes.length ≤ d.memorySize img.primary ∧ 2 < img.bytes.length ∧
    (∀ j, j < img.bytes.length → cellKey 0 0xFFFC ≠ cellKey 0 (img.offset.toNat + j)) ∧
    (img.bytes ≠ [] ∧ d.memorySize 0 < (0xFFFE : Word).toNat + img.bytes.length) ∧
    d.memorySize 1 < (0 : Word).toNat + img.bytes.length := by decide

theorem witness_BootMeetsTheInvariant :
    Config.default.wf = true ∧ Memory.wf [(5, 7)] ∧ (∀ c ∈ [((5, 7) : Host.Cell)], backs Device.default c.1 = true) ∧
    (State.boot Config.default 0 { Image.default with bytes := [1, 0, 2] } [(5, 7)]).isSome = true := by decide

theorem witness_DataFaultsAreThoseOfTheTable :
    faultOf (exec (.movRegMem .r1 0xFFFF) State.reset) = some (.addressRange 0xFFFF .write16) ∧
    faultOf (exec (.movMemReg 0xFFFF .r1) State.reset) = some (.addressRange 0xFFFF .read16) ∧
    faultOf (exec (.pshLit 0) (State.reset.setReg .sp 0xFFFF)) = some (.addressRange 0xFFFF .write16) ∧
    faultOf (exec (.pop .r1) (State.reset.setReg .sp 0xFFFD)) = some (.addressRange 0xFFFF .read16) ∧
    faultOf (exec (.calLit 0) (State.reset.setReg .sp 0xFFFF)) = some (.addressRange 0xFFFF .write16) ∧
    faultOf (exec .ret (State.reset.setReg .fp 0xFFFD)) = some (.addressRange 0xFFFF .read16) := by decide

theorem witness_InstructionsWriteOnlyTheirRegisters :
    (∃ t, exec (.addRegReg .r1 .r2) State.reset = .next t) ∧ (∃ t, exec .hlt State.reset = .next t) ∧
    touchesSfs (.addRegReg .r1 .r2) = false :=
  ⟨⟨_, rfl⟩, ⟨_, rfl⟩, rfl⟩

theorem witness_InstructionsStoreOnlyTheirBytes :
    (∃ t, exec (.movRegMem .r1 0x0100) State.reset = .next t) ∧
    storedKeys State.reset (.movRegMem .r1 0x0100) = [0x0100, 0x0101] ∧ storedKeys State.reset .hlt = [] :=
  ⟨⟨_, rfl⟩, by decide, rfl⟩

theorem witness_StepReturnsOneOutcome : State.reset.cfg.wf = true ∧ State.reset.status = .running := by decide

theorem witness_RegisterAccessLaw : Reg.sp ≠ .fp := by decide

/-- A peripheral at the top of the address space, over the default memory that holds a MOV_MEM_REG from it. -/
def readsPeripheral : State :=
  booted { Config.default with
    addressSpace := .mapper (.cons (.peripheral 9) 0xFF00 0xFFFF true (.cons (.memory 0 65536) 0x0000 0xFFFF true .nil)) }
    0 0 [0x13, 0xFF, 0x02, 0x02]

/-- Whatever the peripheral answers, the load is recorded: at the offset, with the answer, which the register takes. -/
theorem test_peripheral_read_is_recorded (v : Word) (h : Config.peripheralRead16 9 [] 0x0002 = some v) :
    ∃ t, step readsPeripheral = .next t ∧ t.space.trace = [⟨9, 0x0002, .read16 v⟩] ∧ t.reg .r1 = v := by
  have hs : step readsPeripheral = exec (.movMemReg 0xFF02 .r1) (readsPeripheral.fetchedTo 4 readsPeripheral.space) := rfl
  have hd : readsPeripheral.cfg.addressSpace.resolve 0xFF02 = some (.peripheral 9, 0x0002) := by decide
  have ht : readsPeripheral.space.trace = [] := by decide
  have hr : readsPeripheral.cfg.addressSpace.readU16 0xFF02 readsPeripheral.space =
      some (v, { readsPeripheral.space with trace := [⟨9, 0x0002, .read16 v⟩] }) := by
    simp only [Device.readU16, hd, Leaf.readU16, ht, h]
  have hx : execMovMemReg 0xFF02 .r1 (readsPeripheral.fetchedTo 4 readsPeripheral.space) = _ :=
    finish_eq_next.mpr (bind_eq_ok.mpr ⟨_, memRead16_eq_ok.mpr ⟨_, hr, rfl⟩, rfl⟩)
  exact ⟨_, hs.trans hx, rfl, rfl⟩

/-- A step without a peripheral, and one beside a peripheral. -/
theorem witness_PeripheralRecordGrows :
    (∃ t, step (codeAt 0 [0xFF]) = .next t) ∧ memoryOnly (codeAt 0 [0xFF]).cfg.addressSpace = true ∧
    (∃ t, step (readsPeripheral.setReg .ip 0xFE00) = .next t) ∧ memoryOnly readsPeripheral.cfg.addressSpace = false :=
  ⟨exists_next (by decide), by decide, exists_next (by decide), by decide⟩

theorem witness_ConfigurationIsFixed : ∃ t, runFor 1 (codeAt 0 [0xFF]) = .next t := exists_next (by decide)

theorem witness_HaltEndsTheRun :
    (codeAt 0 [0xFF]).status = .running ∧ ∃ t, HaltsIn 1 (codeAt 0 [0xFF]) t := by
  refine ⟨rfl, ?_⟩
  obtain ⟨t, ht, hs⟩ := exists_next_with (o := runFor 1 (codeAt 0 [0xFF])) (fun t => decide (t.status = .halted)) (by decide)
  exact ⟨t, ht, of_decide_eq_true hs⟩

theorem witness_StepKeepsTheInvariant :
    Inv (codeAt 0 [0x17, 0x33, 0x33]) ∧ ∃ t, step (codeAt 0 [0x17, 0x33, 0x33]) = .next t :=
  ⟨by decide, exists_next (by decide)⟩

theorem witness_ConstructionValues : Reg.acc ≠ .ip ∧ Reg.acc ≠ .sp ∧ Reg.acc ≠ .fp := by decide

end Sys2Proof.Tests
end

section
/-!
SUPPORT. What an instruction keeps, and which errors a step can raise: one lemma per shared operation, then one for `exec`, for
the fetch and for the step.
-/

namespace Sys2Proof.Machine

/-! ### Construction (R34) -/

@[simp] theorem reg_construct (c : Config) (entry : Word) (σ : DeviceState) (r : Reg) :
    (State.construct c entry σ).reg r = if r = .ip then entry else if r = .sp ∨ r = .fp then 0xFFFE else 0 := by
  cases r <;> rfl
@[simp] theorem sfs_construct (c : Config) (entry : Word) (σ : DeviceState) : (State.construct c entry σ).sfs = 0 := rfl
@[simp] theorem space_construct (c : Config) (entry : Word) (σ : DeviceState) : (State.construct c entry σ).space = σ := rfl
@[simp] theorem cfg_construct (c : Config) (entry : Word) (σ : DeviceState) : (State.construct c entry σ).cfg = c := rfl
@[simp] theorem status_construct (c : Config) (entry : Word) (σ : DeviceState) :
    (State.construct c entry σ).status = .running := rfl

/-! ### Instructions that end in a register write: the operation before it decides whether they answer -/

/-- An operation followed by a pure update answers exactly when it does, with its result updated. -/
theorem bind_ok_eq_ok {ε α β : Type} {x : Except ε α} {g : α → β} {b : β} :
    (x >>= fun a => .ok (g a)) = .ok b ↔ ∃ a, x = .ok a ∧ b = g a := by
  rw [bind_eq_ok]
  simp [eq_comm]

/-- An operation followed by a pure update raises what the operation raises. -/
theorem bind_ok_eq_error {ε α β : Type} {x : Except ε α} {g : α → β} {e : ε} :
    (x >>= fun a => .ok (g a)) = .error e ↔ x = .error e := by
  simp [bind_eq_error]

theorem exec_movMemReg_eq_next {a : Word} {d : Reg} {s t : State} :
    exec (.movMemReg a d) s = .next t ↔ ∃ v u, memRead16 .read16 a s = .ok (v, u) ∧ t = u.setReg d v :=
  finish_eq_next.trans <| (bind_ok_eq_ok (g := fun p : Word × State => p.2.setReg d p.1)).trans Prod.exists

theorem exec_pop_eq_next {d : Reg} {s t : State} :
    exec (.pop d) s = .next t ↔ ∃ v u, pop s = .ok (v, u) ∧ t = u.setReg d v :=
  finish_eq_next.trans <| (bind_ok_eq_ok (g := fun p : Word × State => p.2.setReg d p.1)).trans Prod.exists

theorem exec_calLit_eq_next {a : Word} {s t : State} :
    exec (.calLit a) s = .next t ↔ ∃ u, pushState s = .ok u ∧ t = u.setReg .ip a :=
  finish_eq_next.trans bind_ok_eq_ok

theorem exec_calReg_eq_next {r : Reg} {s t : State} :
    exec (.calReg r) s = .next t ↔ ∃ u, pushState s = .ok u ∧ t = u.setReg .ip (s.reg r) :=
  finish_eq_next.trans bind_ok_eq_ok

theorem exec_movMemReg_eq_fault {a : Word} {d : Reg} {s : State} {f : Fault} :
    exec (.movMemReg a d) s = .fault f ↔ memRead16 .read16 a s = .error f :=
  finish_eq_fault.trans (bind_ok_eq_error (g := fun p : Word × State => p.2.setReg d p.1))

theorem exec_pop_eq_fault {d : Reg} {s : State} {f : Fault} : exec (.pop d) s = .fault f ↔ pop s = .error f :=
  finish_eq_fault.trans (bind_ok_eq_error (g := fun p : Word × State => p.2.setReg d p.1))

theorem exec_calLit_eq_fault {a : Word} {s : State} {f : Fault} :
    exec (.calLit a) s = .fault f ↔ pushState s = .error f :=
  finish_eq_fault.trans bind_ok_eq_error

theorem exec_calReg_eq_fault {r : Reg} {s : State} {f : Fault} :
    exec (.calReg r) s = .fault f ↔ pushState s = .error f :=
  finish_eq_fault.trans bind_ok_eq_error

/-! ### The frame of the operations (R25) -/

/-- From `s` to `t` only registers of the list changed, of all the state but sfs and the address space. -/
structure Keeps (s t : State) (written : List Reg) : Prop where
  regs : RegsKept s t written
  cfg : t.cfg = s.cfg
  status : t.status = s.status

theorem Keeps.refl (s : State) (rs : List Reg) : Keeps s s rs := ⟨fun _ _ => rfl, rfl, rfl⟩

theorem Keeps.trans {s t u : State} {rs qs : List Reg} (h : Keeps s t rs) (h' : Keeps t u qs) : Keeps s u (rs ++ qs) where
  regs r hr := by
    obtain ⟨h1, h2⟩ := not_or.mp (mt List.mem_append.mpr hr)
    exact (h'.regs r h2).trans (h.regs r h1)
  cfg := h'.cfg.trans h.cfg
  status := h'.status.trans h.status

theorem setReg_keeps (s : State) (r : Reg) (v : Word) : Keeps s (s.setReg r v) [r] where
  regs q hq := by rw [reg_setReg, if_neg (by simpa using hq)]
  cfg := rfl
  status := rfl

theorem memWrite16_keeps {a v : Word} {s t : State} (h : memWrite16 a v s = .ok t) : Keeps s t [] := by
  obtain ⟨σ, -, rfl⟩ := memWrite16_eq_ok.mp h
  exact ⟨fun _ _ => rfl, rfl, rfl⟩

theorem memRead16_keeps {acc : Access} {a v : Word} {s t : State} (h : memRead16 acc a s = .ok (v, t)) : Keeps s t [] := by
  obtain ⟨σ, -, rfl⟩ := memRead16_eq_ok.mp h
  exact ⟨fun _ _ => rfl, rfl, rfl⟩

theorem push_keeps {v : Word} {s t : State} (h : push v s = .ok t) : Keeps s t [.sp] := by
  obtain ⟨σ, -, rfl⟩ := push_eq_ok.mp h
  exact ⟨(setReg_keeps (s.setSpace σ) .sp _).regs, rfl, rfl⟩

theorem pop_keeps {v : Word} {s t : State} (h : pop s = .ok (v, t)) : Keeps s t [.sp] := by
  obtain ⟨σ, -, rfl⟩ := pop_eq_ok.mp h
  exact ⟨(setReg_keeps s .sp _).regs, rfl, rfl⟩

theorem pushState_keeps {s t : State} (h : pushState s = .ok t) : Keeps s t [.sp, .fp] := by
  obtain ⟨σ, -, -, rfl⟩ := pushState_eq_ok h
  refine ⟨fun r hr => ?_, rfl, rfl⟩
  rw [reg_framed, if_neg (by simpa using hr)]

/-- Of the twelve registers a return keeps ACC alone. -/
theorem popState_keeps {s t : State} (h : popState s = .ok t) : Keeps s t (writtenRegs .ret) := by
  obtain ⟨w, σ, -, -, rfl⟩ := popState_eq_ok h
  refine ⟨fun r hr => ?_, rfl, rfl⟩
  obtain rfl : r = .acc := by cases r <;> simp [writtenRegs] at hr ⊢
  rfl

/-! ### What an instruction keeps -/

/-- An instruction that answers, HLT apart, changed only the registers it writes, sfs and the address space. -/
theorem exec_keeps {i : Instr} {s t : State} (hi : i ≠ .hlt) (h : exec i s = .next t) : Keeps s t (writtenRegs i) := by
  cases i with
  | movLitReg v d => cases h; exact setReg_keeps ..
  | movRegReg r d => cases h; exact setReg_keeps ..
  | movRegMem r a => exact memWrite16_keeps (finish_eq_next.mp h)
  | movMemReg a d =>
    obtain ⟨v, u, hu, rfl⟩ := exec_movMemReg_eq_next.mp h
    exact (memRead16_keeps hu).trans (setReg_keeps ..)
  | addRegReg p q => cases h; exact setReg_keeps ..
  | jmpNotEq v a =>
    cases h
    split
    · exact setReg_keeps ..
    · exact .refl ..
  | pshLit v => exact push_keeps (finish_eq_next.mp h)
  | pshReg r => exact push_keeps (finish_eq_next.mp h)
  | pop d =>
    obtain ⟨v, u, hu, rfl⟩ := exec_pop_eq_next.mp h
    exact (pop_keeps hu).trans (setReg_keeps ..)
  | calLit a =>
    obtain ⟨u, hu, rfl⟩ := exec_calLit_eq_next.mp h
    exact (pushState_keeps hu).trans (setReg_keeps ..)
  | calReg r =>
    obtain ⟨u, hu, rfl⟩ := exec_calReg_eq_next.mp h
    exact (pushState_keeps hu).trans (setReg_keeps ..)
  | ret => exact popState_keeps (finish_eq_next.mp h)
  | hlt => exact absurd rfl hi

/-- An instruction that neither pushes, pops, calls nor returns keeps sfs (R30). -/
theorem exec_sfs {i : Instr} {s t : State} (hi : touchesSfs i = false) (h : exec i s = .next t) : t.sfs = s.sfs := by
  cases i with
  | movLitReg v d => cases h; rfl
  | movRegReg r d => cases h; rfl
  | movRegMem r a =>
    obtain ⟨σ, -, rfl⟩ := memWrite16_eq_ok.mp (finish_eq_next.mp h)
    rfl
  | movMemReg a d =>
    obtain ⟨v, u, hu, rfl⟩ := exec_movMemReg_eq_next.mp h
    obtain ⟨σ, -, rfl⟩ := memRead16_eq_ok.mp hu
    rfl
  | addRegReg p q => cases h; rfl
  | jmpNotEq v a => cases h; split <;> rfl
  | hlt => cases h; rfl
  | pshLit _ | pshReg _ | pop _ | calLit _ | calReg _ | ret => cases hi

/-! ### Which errors a step can raise (R141, R142) -/

/-- In execution an instruction raises AddressRange only. -/
theorem exec_eq_fault {i : Instr} {s : State} {f : Fault} (h : exec i s = .fault f) :
    ∃ a acc, f = .addressRange a acc := by
  have hpush : ∀ {v : Word}, push v s = .error f → ∃ a acc, f = .addressRange a acc := fun hf =>
    ⟨_, _, (push_eq_error.mp hf).2⟩
  have hcall : pushState s = .error f → ∃ a acc, f = .addressRange a acc := fun hf =>
    have ⟨j, _, e⟩ := pushState_eq_error hf
    ⟨_, _, e⟩
  cases i with
  | movRegMem r a => exact ⟨_, _, (memWrite16_eq_error.mp (finish_eq_fault.mp h)).2⟩
  | movMemReg a d => exact ⟨_, _, (memRead16_eq_error.mp (exec_movMemReg_eq_fault.mp h)).2⟩
  | pshLit v => exact hpush (finish_eq_fault.mp h)
  | pshReg r => exact hpush (finish_eq_fault.mp h)
  | pop d => exact ⟨_, _, (pop_eq_error.mp (exec_pop_eq_fault.mp h)).2⟩
  | calLit a => exact hcall (exec_calLit_eq_fault.mp h)
  | calReg r => exact hcall (exec_calReg_eq_fault.mp h)
  | ret =>
    obtain ⟨j, -, e⟩ := popState_eq_error (finish_eq_fault.mp h)
    exact ⟨_, _, e⟩
  | movLitReg _ _ | movRegReg _ _ | addRegReg _ _ | jmpNotEq _ _ | hlt => cases h

/-- The errors of the fetch of an instruction (R73 to R75, R137). -/
inductive FetchFault : Fault → Prop where
  | byte (a : Word) : FetchFault (.addressRange a .fetch8)
  | word (a : Word) : FetchFault (.addressRange a .fetch16)
  | register (b : Byte) (a : Word) : FetchFault (.invalidRegister b a)
  | opcode (b : Byte) (a : Word) : FetchFault (.unknownOpcode b a)

theorem fetch8_fault {s : State} {f : Fault} (h : fetch8 s = .error f) : FetchFault f := by
  obtain ⟨-, rfl⟩ := fetch8_eq_error.mp h
  exact .byte _

theorem fetch16_fault {s : State} {f : Fault} (h : fetch16 s = .error f) : FetchFault f := by
  obtain ⟨-, rfl⟩ := fetch16_eq_error.mp h
  exact .word _

theorem fetchReg_fault {s : State} {f : Fault} (h : fetchReg s = .error f) : FetchFault f := by
  obtain ⟨-, rfl⟩ | ⟨b, -, -, -, rfl⟩ := fetchReg_eq_error.mp h
  · exact .byte _
  · exact .register ..

/-- What both operand-fetch helpers' errors satisfy, the errors of a whole operand list satisfy: it raises nothing itself. -/
theorem decodeOperands_eq_error {σ ε : Type} {P : ε → Prop}
    {f16 : σ → Except ε (Word × σ)} {fReg : σ → Except ε (Reg × σ)}
    (h16 : ∀ {src e}, f16 src = .error e → P e) (hReg : ∀ {src e}, fReg src = .error e → P e)
    {k : Mnemonic} {src : σ} {e : ε} (h : decodeOperands f16 fReg k src = .error e) : P e := by
  cases k <;> simp only [decodeOperands, bind_eq_error, reduceCtorEq, and_false, exists_false, or_false] at h
  case movLitReg | movMemReg => exact h.elim h16 fun ⟨_, _, h⟩ => hReg h
  case movRegMem => exact h.elim hReg fun ⟨_, _, h⟩ => h16 h
  case movRegReg | addRegReg => exact h.elim hReg fun ⟨_, _, h⟩ => hReg h
  case jmpNotEq => exact h.elim h16 fun ⟨_, _, h⟩ => h16 h
  case pshLit | calLit => exact h16 h
  case pshReg | pop | calReg => exact hReg h

theorem fetchInstr_fault {s : State} {f : Fault} (h : fetchInstr s = .error f) : FetchFault f := by
  obtain h | ⟨⟨b, u⟩, -, h⟩ := bind_eq_error.mp h
  · exact fetch8_fault h
  · dsimp only at h
    split at h
    · exact decodeOperands_eq_error fetch16_fault fetchReg_fault (bind_ok_eq_error.mp h)
    · cases h
    · cases h
      exact .opcode ..

/-- A step that faults raised the error in its fetch, or in the execution of the instruction it fetched. -/
theorem step_eq_fault {s : State} {f : Fault} (h : step s = .fault f) :
    s.cfg.wf = true ∧ s.status = .running ∧
      (fetchInstr s = .error f ∨ ∃ i u, fetchInstr s = .ok (.instr i, u) ∧ exec i u = .fault f) := by
  rw [step] at h
  split at h
  · rename_i hw
    split at h
    · rename_i hs
      refine ⟨hw, hs, ?_⟩
      rcases hf : fetchInstr s with g | ⟨x, u⟩
      · rw [hf] at h
        cases h
        exact .inl rfl
      · rw [hf] at h
        cases x with
        | instr i => exact .inr ⟨i, u, rfl, h⟩
        | endOfProgram a => cases h
    · cases h
    · cases h
  · cases h

end Sys2Proof.Machine
end

section
/-!
PROOFS. The obligations of spec/10_state.md: the registers, sfs, construction and the error that nothing raises.
-/

namespace Sys2Proof.Machine

/-- Settles O45: a fetch raises the errors of R73 to R75 and R137, an execution raises AddressRange, and a step nothing else. -/
theorem invariantViolationNeverRaised : Obligations.InvariantViolationNeverRaised := by
  intro s h
  obtain ⟨-, -, hf | ⟨i, u, -, hx⟩⟩ := step_eq_fault h
  · cases fetchInstr_fault hf
  · obtain ⟨_, _, e⟩ := exec_eq_fault hx
    cases e

/-- Settles O48, by the frames of the shared operations; HLT, which ends the run, is the one instruction outside them. -/
theorem instructionsWriteOnlyTheirRegisters : Obligations.InstructionsWriteOnlyTheirRegisters := by
  intro i s t h
  by_cases hi : i = .hlt
  · subst hi
    cases h
    exact ⟨fun _ _ => rfl, fun _ => rfl, rfl, rfl⟩
  · have hk := exec_keeps hi h
    exact ⟨hk.regs, fun hs => exec_sfs hs h, hk.cfg, hk.status.trans (if_neg hi).symm⟩

/-- Settles O46: R23's law is the read-after-write law of `setReg`, at the register written and at another. -/
theorem registerAccessLaw : Obligations.RegisterAccessLaw :=
  fun s r v => ⟨by rw [reg_setReg, if_pos rfl], fun q hq => by rw [reg_setReg, if_neg hq]⟩

/-- Settles O53. -/
theorem constructionValues : Obligations.ConstructionValues := by
  intro c entry σ
  refine ⟨rfl, rfl, rfl, rfl, fun r hip hsp hfp => ?_, ?_, rfl, rfl, rfl⟩
  · simp [hip, hsp, hfp]
  · simp [balance]

/-- Settles O56, register by register. -/
theorem registerBufferIsPacked : Obligations.RegisterBufferIsPacked := by
  intro x r
  refine ⟨rfl, ?_⟩
  cases r <;> exact ⟨rfl, rfl⟩

end Sys2Proof.Machine
end

section
/-!
SUPPORT. Memory and the address space: what a mapper's lookup finds, the plain memory and the peripheral as devices of their
own, and what the accesses of an instruction and of a step leave in memory.
-/

namespace Sys2Proof

open Machine

namespace Machine

/-! ### Words in memory (R42) -/

/-- The bytes after a word was stored, the high byte's key asked first. -/
theorem Memory.read_writeWord_hi_first (m : Memory) (k q : Nat) (v : Word) :
    (m.writeWord k v).read q = if q = k then hi8 v else if q = k + 1 then lo8 v else m.read q := by
  rw [Memory.read_writeWord]
  by_cases hk : q = k
  · rw [if_neg (show q ≠ k + 1 by omega), if_pos hk, if_pos hk]
  · simp only [if_neg hk]

/-- Two bytes written one after the other are the word they make. -/
theorem Memory.write_write_eq_writeWord (m : Memory) (k : Nat) (a b : Byte) :
    (m.write k a).write (k + 1) b = m.writeWord k (joinBytes a b) := by
  rw [Memory.writeWord, hi8_joinBytes, lo8_joinBytes]

@[simp] theorem cellKey_zero (o : Nat) : cellKey 0 o = o := by simp [cellKey]

/-! ### Regions (R48, R54) -/

/-- R48: a region's range, inclusive at both ends. -/
theorem inRegion_iff {start last a : Word} : inRegion start last a = true ↔ start ≤ a ∧ a ≤ last := by
  simp [inRegion]

/-- Inside its range a remapped region's offset is the distance from its start, with no wrap-around (R54). -/
theorem toNat_regionOffset {start a : Word} {remap : Bool} (h : start ≤ a) :
    (regionOffset start remap a).toNat = if remap then a.toNat - start.toNat else a.toNat := by
  cases remap
  · rfl
  · exact BitVec.toNat_sub_of_le h

/-! ### The state of the address space -/

theorem DeviceState.eq_mk_iff {σ : DeviceState} {m : Memory} {es : List PeripheralEvent} :
    σ = ⟨m, es⟩ ↔ σ.mem = m ∧ σ.trace = es := by
  cases σ; simp

end Machine

/-! ### A device of its own: the plain memory (R44) and the peripheral (R46) -/

theorem Device.readU8_memory (id size : Nat) (o : Word) (σ : DeviceState) :
    (Device.memory id size).readU8 o σ = if o.toNat < size then some (σ.mem.read (cellKey id o.toNat), σ) else none := rfl

theorem Device.readU16_memory (id size : Nat) (o : Word) (σ : DeviceState) :
    (Device.memory id size).readU16 o σ =
      if o.toNat + 1 < size then some (σ.mem.readWord (cellKey id o.toNat), σ) else none := rfl

theorem Device.writeU8_memory (id size : Nat) (o : Word) (v : Byte) (σ : DeviceState) :
    (Device.memory id size).writeU8 o v σ =
      if o.toNat < size then some { σ with mem := σ.mem.write (cellKey id o.toNat) v } else none := rfl

theorem Device.writeU16_memory (id size : Nat) (o v : Word) (σ : DeviceState) :
    (Device.memory id size).writeU16 o v σ =
      if o.toNat + 1 < size then some { σ with mem := σ.mem.writeWord (cellKey id o.toNat) v } else none := rfl

theorem Device.readU8_peripheral_eq_some {id : Nat} {o : Word} {σ σ' : DeviceState} {b : Byte} :
    (Device.peripheral id).readU8 o σ = some (b, σ') ↔ Config.peripheralRead8 id σ.trace o = some b ∧
      σ' = { σ with trace := ⟨id, o, .read8 b⟩ :: σ.trace } := by
  simp only [Device.readU8, Device.resolve, Leaf.readU8]
  rcases Config.peripheralRead8 id σ.trace o with _ | c
  · simp
  · simp only [Option.some.injEq, Prod.mk.injEq]
    refine and_congr_right ?_
    rintro rfl
    exact eq_comm

theorem Device.readU16_peripheral_eq_some {id : Nat} {o : Word} {σ σ' : DeviceState} {v : Word} :
    (Device.peripheral id).readU16 o σ = some (v, σ') ↔ Config.peripheralRead16 id σ.trace o = some v ∧
      σ' = { σ with trace := ⟨id, o, .read16 v⟩ :: σ.trace } := by
  simp only [Device.readU16, Device.resolve, Leaf.readU16]
  rcases Config.peripheralRead16 id σ.trace o with _ | c
  · simp
  · simp only [Option.some.injEq, Prod.mk.injEq]
    refine and_congr_right ?_
    rintro rfl
    exact eq_comm

theorem Device.writeU8_peripheral_eq_some {id : Nat} {o : Word} {σ σ' : DeviceState} {b : Byte} :
    (Device.peripheral id).writeU8 o b σ = some σ' ↔ Config.peripheralWrite8 id σ.trace o b = true ∧
      σ' = { σ with trace := ⟨id, o, .write8 b⟩ :: σ.trace } := by
  simp only [Device.writeU8, Device.resolve, Leaf.writeU8, Option.ite_none_right_eq_some, Option.some.injEq]
  exact and_congr_right fun _ => eq_comm

theorem Device.writeU16_peripheral_eq_some {id : Nat} {o v : Word} {σ σ' : DeviceState} :
    (Device.peripheral id).writeU16 o v σ = some σ' ↔ Config.peripheralWrite16 id σ.trace o v = true ∧
      σ' = { σ with trace := ⟨id, o, .write16 v⟩ :: σ.trace } := by
  simp only [Device.writeU16, Device.resolve, Leaf.writeU16, Option.ite_none_right_eq_some, Option.some.injEq]
  exact and_congr_right fun _ => eq_comm

/-! ### The lookup decides every operation (R52, R57) -/

/-- Two devices that look two addresses up alike serve every operation on them alike. -/
theorem Device.operations_eq_of_resolve {d e : Device} {a b : Word} (h : d.resolve a = e.resolve b) (σ : DeviceState) :
    d.readU8 a σ = e.readU8 b σ ∧ d.readU16 a σ = e.readU16 b σ ∧
    (∀ v, d.writeU8 a v σ = e.writeU8 b v σ) ∧ ∀ v, d.writeU16 a v σ = e.writeU16 b v σ := by
  simp only [Device.readU8, Device.readU16, Device.writeU8, Device.writeU16, h, implies_true, and_self]

theorem Device.resolve_mapper_cons_of_mem {d : Device} {start last a : Word} {remap : Bool} {older : Regions}
    (h : inRegion start last a = true) :
    (Device.mapper (.cons d start last remap older)).resolve a = d.resolve (regionOffset start remap a) := by
  rw [Device.resolve, Regions.resolve, if_pos h]

theorem Device.resolve_mapper_cons_of_not_mem {d : Device} {start last a : Word} {remap : Bool} {older : Regions}
    (h : ¬ inRegion start last a = true) :
    (Device.mapper (.cons d start last remap older)).resolve a = (Device.mapper older).resolve a := by
  rw [Device.resolve, Regions.resolve, if_neg h, Device.resolve]

/-- A mapper looks an address up in the first region of its list that contains it, at that region's offset (R53, R54, R58). -/
theorem Device.resolve_mapper_of_find : ∀ {rs : Regions} {a : Word} {r : Region},
    (regionList rs).find? (fun r => inRegion r.start r.last a) = some r →
    (Device.mapper rs).resolve a = r.device.resolve (regionOffset r.start r.remap a) ∧
      (regionOffset r.start r.remap a).toNat = if r.remap then a.toNat - r.start.toNat else a.toNat
  | .nil, _, _, h => by cases h
  | .cons d start last remap older, a, r, h => by
    rw [regionList, List.find?_cons] at h
    split at h
    · rename_i ha
      cases h
      exact ⟨Device.resolve_mapper_cons_of_mem ha, toNat_regionOffset (inRegion_iff.mp ha).1⟩
    · rename_i ha
      rw [Device.resolve_mapper_cons_of_not_mem (by simpa using ha)]
      exact Device.resolve_mapper_of_find h

/-- The default address space looks every address up in its one memory, at the address itself (R68). -/
theorem Device.resolve_default (a : Word) : Device.default.resolve a = (Device.memory 0 65536).resolve a := by
  have ha : inRegion 0x0000 0xFFFF a = true := inRegion_iff.mpr ⟨Nat.zero_le _, Nat.le_of_lt_succ a.isLt⟩
  rw [Device.default, Device.resolve_mapper_cons_of_mem ha, regionOffset, if_pos rfl, sub_zero]

namespace Machine

/-! ### Fetches from memory devices (R73 to R75) -/

theorem fetch8_of_byteCell {s : State} {c : Nat} (h : s.cfg.addressSpace.byteCell (s.reg .ip) = some c) :
    fetch8 s = .ok (s.space.mem.read c, s.setReg .ip (s.reg .ip + 1)) :=
  fetch8_eq_ok.mpr ⟨s.space, Device.readU8_of_byteCell h _, rfl⟩

theorem fetch16_of_wordCell {s : State} {c : Nat} (h : s.cfg.addressSpace.wordCell (s.reg .ip) = some c) :
    fetch16 s = .ok (s.space.mem.readWord c, s.setReg .ip (s.reg .ip + 2)) :=
  fetch16_eq_ok.mpr ⟨s.space, Device.readU16_of_wordCell h _, rfl⟩

theorem fetchReg_of_byteCell {s : State} {c : Nat} {q : Reg} (h : s.cfg.addressSpace.byteCell (s.reg .ip) = some c)
    (hq : Names s.cfg.ordinals (s.space.mem.read c) q) : fetchReg s = .ok (q, s.setReg .ip (s.reg .ip + 1)) :=
  fetchReg_eq_ok.mpr ⟨_, s.space, Device.readU8_of_byteCell h _, regOfByte_eq_some.mpr hq, rfl⟩

theorem fetchReg_of_byteCell_invalid {s : State} {c : Nat} (h : s.cfg.addressSpace.byteCell (s.reg .ip) = some c)
    (hp : s.cfg.ordinals = .fault) (hb : 12 ≤ (s.space.mem.read c).toNat) :
    fetchReg s = .error (.invalidRegister (s.space.mem.read c) (s.reg .ip)) :=
  fetchReg_eq_error.mpr (.inr ⟨_, s.space, Device.readU8_of_byteCell h _, regOfByte_eq_none.mpr ⟨hp, hb⟩, rfl⟩)

/-! ### What accesses leave in memory -/

/-- What every store of a word into a memory device keeps, accesses keep: nothing else they do changes memory. -/
theorem Accesses.mem_induction {d : Device} {P : Memory → Prop}
    (hstore : ∀ {m : Memory} {a v : Word} {k : Nat}, d.wordCell a = some k → P m → P (m.writeWord k v))
    {σ τ : DeviceState} (h : Accesses d σ τ) (hσ : P σ.mem) : P τ.mem := by
  induction h with
  | refl => exact hσ
  | read8 hr _ ih => exact ih (by rwa [Device.readU8_mem hr])
  | read16 hr _ ih => exact ih (by rwa [Device.readU16_mem hr])
  | write16 hw _ ih =>
    obtain ⟨k, hk, rfl⟩ | ⟨-, id, o, -, rfl⟩ := Device.writeU16_cases hw
    · exact ih (hstore hk hσ)
    · exact ih hσ

/-- Contents in canonical form, every listed byte inside a memory device of the tree (R44). -/
def MemoryInv (d : Device) (m : Memory) : Prop := m.wf ∧ ∀ c ∈ m, backs d c.1 = true

/-- The invariant is a well-formed configuration over such contents. -/
theorem inv_iff {s : State} : Inv s ↔ s.cfg.wf = true ∧ MemoryInv s.cfg.addressSpace s.space.mem := Iff.rfl

/-- A word stored where a memory device serves it keeps the contents canonical and backed. -/
theorem MemoryInv.writeWord {d : Device} {m : Memory} {a v : Word} {k : Nat} (hk : d.wordCell a = some k)
    (hm : MemoryInv d m) : MemoryInv d (m.writeWord k v) := by
  obtain ⟨hwf, hb⟩ := hm
  obtain ⟨hhi, hlo⟩ := Device.backs_wordCell hk
  refine ⟨Memory.wf_writeWord hwf k v, fun c hc => ?_⟩
  obtain hc | hc | hc := Memory.mem_writeWord hc
  · rwa [hc]
  · rwa [hc]
  · exact hb c hc

/-- A step that answers kept the configuration and moved the address space by accesses. -/
theorem step_accesses {s t : State} (h : step s = .next t) :
    t.cfg = s.cfg ∧ Accesses s.cfg.addressSpace s.space t.space := by
  obtain ⟨-, -, a, σ, hσ, ⟨i, -, hx⟩ | ⟨b, -, rfl⟩⟩ := step_eq_next h
  · obtain ⟨hc, ht⟩ := exec_accesses hx
    exact ⟨hc, hσ.accesses.trans ht⟩
  · exact ⟨rfl, hσ.accesses⟩

/-! ### Which bytes a list of operations stores to -/

/-- The keys of the memory bytes an operation stores to. -/
def DeviceOp.storedKeys (d : Device) : DeviceOp → List Nat
  | .read8 _ => []
  | .read16 _ => []
  | .write16 a _ => wordKeys d a

theorem perform_read_other {d : Device} {op : DeviceOp} {σ τ : DeviceState} {k : Nat} (h : op.perform d σ = some τ)
    (hk : k ∉ op.storedKeys d) : τ.mem.read k = σ.mem.read k := by
  cases op with
  | read8 a =>
    obtain ⟨b, h⟩ := perform_read8.mp h
    rw [Device.readU8_mem h]
  | read16 a =>
    obtain ⟨v, h⟩ := perform_read16.mp h
    rw [Device.readU16_mem h]
  | write16 a v =>
    obtain ⟨c, hc, rfl⟩ | ⟨-, id, o, -, rfl⟩ := Device.writeU16_cases (perform_write16.mp h)
    · simp only [DeviceOp.storedKeys, wordKeys, hc, List.mem_cons, List.not_mem_nil, or_false, not_or] at hk
      rw [Memory.read_writeWord, if_neg hk.2, if_neg hk.1]
    · rfl

theorem performAll_read_other {d : Device} {ops : List DeviceOp} {σ τ : DeviceState} {k : Nat}
    (h : performAll d ops σ = some τ) (hk : k ∉ ops.flatMap (DeviceOp.storedKeys d)) : τ.mem.read k = σ.mem.read k := by
  induction ops generalizing σ with
  | nil => cases h; rfl
  | cons op ops ih =>
    obtain ⟨ρ, hop, h⟩ := performAll_cons_eq_some.mp h
    rw [List.flatMap_cons, List.mem_append, not_or] at hk
    rw [ih h hk.2, perform_read_other hop hk.1]

/-- The bytes an instruction stores to are those its operations store to. -/
theorem flatMap_storedKeys_dataOps (s : State) (i : Instr) :
    (dataOps s i).flatMap (DeviceOp.storedKeys s.cfg.addressSpace) = storedKeys s i := by
  cases i with
  | calLit _ | calReg _ => simp only [dataOps, storedKeys, storeAddresses, List.flatMap_map, DeviceOp.storedKeys]
  | ret => simp [dataOps, returnPops, storedKeys, storeAddresses, List.flatMap_map, DeviceOp.storedKeys]
  | movRegMem _ _ | pshLit _ | pshReg _ => rfl
  | movLitReg _ _ | movRegReg _ _ | movMemReg _ _ | addRegReg _ _ | jmpNotEq _ _ | pop _ | hlt => rfl

/-! ### The operations of a step and its record -/

/-- A step that answers issued operations, and performed them. -/
theorem step_performs {s t : State} (h : step s = .next t) :
    ∃ ops, StepIssues s t ops ∧ performAll s.cfg.addressSpace ops s.space = some t.space := by
  obtain ⟨-, -, a, σ, -, ⟨i, hf, hx⟩ | ⟨b, hf, rfl⟩⟩ := step_eq_next h
  · obtain ⟨hop, τ, hτ, hu⟩ := fetchInstr_performs hf
    rw [hu] at hf hx
    exact ⟨_, .inr ⟨i, τ, hop, hf, hτ, hx, rfl⟩, performAll_append hτ (exec_performs hx)⟩
  · obtain ⟨rfl, τ, hr, hu⟩ := fetchInstr_endOfProgram hf
    rw [hu] at hf ⊢
    exact ⟨_, .inl ⟨τ, hr, hf, rfl, rfl⟩, performAll_cons_eq_some.mpr ⟨τ, perform_read8.mpr ⟨_, hr⟩, rfl⟩⟩

theorem DeviceOp.Recorded.ne_write8 {d : Device} {op : DeviceOp} {e : PeripheralEvent} (h : op.Recorded d e) (v : Byte) :
    e.op ≠ .write8 v := by
  obtain ⟨-, h⟩ := h
  cases op with
  | read8 _ | read16 _ =>
    obtain ⟨_, he⟩ := h
    simp [he]
  | write16 _ _ => simp [show e.op = _ from h]

/-- No event of the engine's operations is a `write_u8` (R59). -/
theorem events_ne_write8 {d : Device} {ops : List DeviceOp} {events : List PeripheralEvent}
    (h : List.Forall₂ (DeviceOp.Recorded d) ops events) : ∀ e ∈ events, ∀ v, e.op ≠ .write8 v := by
  induction h with
  | nil => nofun
  | cons he _ ih => exact List.forall_mem_cons.mpr ⟨he.ne_write8, ih⟩

end Machine

end Sys2Proof
end

section
/-!
PROOFS. The obligations of spec/20_memory.md: the memory device, the mapper and the peripheral, the memory frame of the
instructions, the record of the peripherals, and what steps and runs keep.
-/

namespace Sys2Proof.Machine

/-! ### The invariant and the configuration -/

/-- Settles O55: a step moves the address space by accesses, and the one access that changes memory stores a word that a
memory device serves. -/
theorem stepKeepsTheInvariant : Obligations.StepKeepsTheInvariant := by
  intro s t hs h
  obtain ⟨hw, hm⟩ := inv_iff.mp hs
  obtain ⟨hc, ha⟩ := step_accesses h
  rw [inv_iff, hc]
  exact ⟨hw, ha.mem_induction MemoryInv.writeWord hm⟩

/-- Settles O54. -/
theorem resetMeetsTheInvariant : Obligations.ResetMeetsTheInvariant :=
  ⟨by decide, ⟨.nil, nofun⟩, nofun⟩

/-- Settles O51, by induction on the length of the run. -/
theorem configurationIsFixed : Obligations.ConfigurationIsFixed := by
  intro fuel
  induction fuel with
  | zero => intro s t h; cases h; rfl
  | succ fuel ih =>
    intro s t h
    obtain ⟨u, hu, ⟨-, h⟩ | ⟨-, rfl⟩⟩ := goOn_eq_next h
    · exact (ih u t h).trans (step_accesses hu).1
    · exact (step_accesses hu).1

/-- Settles O25. -/
theorem noStepWithoutRun : Obligations.NoStepWithoutRun := by
  refine ⟨fun s hw => by simp [step, hw], fun s hw hs => ?_⟩
  rw [step, if_pos hw]
  split
  · exact absurd ‹_› hs
  · rfl
  · rfl

/-! ### The memory device and the mapper -/

/-- Settles O35. -/
theorem plainMemoryIsBigEndianArray : Obligations.PlainMemoryIsBigEndianArray := by
  intro id size o σ
  simp only [Device.readU8_memory, Device.readU16_memory, Device.writeU8_memory, Device.writeU16_memory, cellKey_add,
    Memory.readWord, Option.ite_none_right_eq_some, Option.some.injEq, ite_eq_right_iff, reduceCtorEq, imp_false, true_and]
  refine ⟨fun v => ?_, fun v => ?_⟩
  · rintro σ' ⟨-, rfl⟩
    exact ⟨rfl, fun k => Memory.read_write ..⟩
  · rintro σ' ⟨-, rfl⟩
    exact ⟨rfl, fun k => Memory.read_writeWord_hi_first ..⟩

/-- Settles O36: both views are the same two bytes of the device, at the keys `k` and `k + 1`. -/
theorem mixedWidthViewsAgree : Obligations.MixedWidthViewsAgree := by
  intro d o k σ hk hk1
  have hb := Device.byteCell_of_wordCell hk
  refine ⟨fun v => ⟨_, Device.writeU16_of_wordCell hk v σ, ?_, ?_⟩,
    fun a b => ⟨_, _, Device.writeU8_of_byteCell hb a σ, Device.writeU8_of_byteCell hk1 b _, ?_⟩⟩
  · rw [Device.readU8_of_byteCell hb, Memory.read_writeWord_hi_first, if_pos rfl]
  · rw [Device.readU8_of_byteCell hk1, Memory.read_writeWord, if_pos rfl]
  · rw [Device.readU16_of_wordCell hk, Memory.write_write_eq_writeWord, Memory.readWord_writeWord_same]

/-- Settles O37: the lookup in the region list decides where an operation goes, and it does not depend on the operation. -/
theorem mapperForwardsToFirstRegion : Obligations.MapperForwardsToFirstRegion := by
  refine ⟨fun a σ => ⟨rfl, rfl, fun _ => rfl, fun _ => rfl⟩, fun d start last remap older a σ => ⟨fun h => ?_, fun h => ?_⟩⟩
  · exact Device.operations_eq_of_resolve (Device.resolve_mapper_cons_of_mem (inRegion_iff.mpr h)) σ
  · exact Device.operations_eq_of_resolve (Device.resolve_mapper_cons_of_not_mem (mt inRegion_iff.mp h)) σ

/-- Settles O38: the one region that contains the address is the first one, and its device serves both accesses at the local
offset. -/
theorem writeThenReadThroughMapper : Obligations.WriteThenReadThroughMapper := by
  intro rs a start last id size σ v hf
  have hfind : (regionList rs).find? (fun r => inRegion r.start r.last a) = some ⟨.memory id size, start, last, true⟩ := by
    rw [← List.head?_filter, hf, List.head?_cons]
  obtain ⟨hr, ho⟩ := Device.resolve_mapper_of_find hfind
  obtain ⟨-, -, -, hwrite⟩ := Device.operations_eq_of_resolve hr σ
  refine ⟨hwrite v, fun σ' h => ?_⟩
  obtain ⟨-, hread, -, -⟩ := Device.operations_eq_of_resolve hr σ'
  rw [hwrite v, Device.writeU16_memory, Option.ite_none_right_eq_some, Option.some.injEq] at h
  obtain ⟨hlt, rfl⟩ := h
  rw [hread, Device.readU16_memory, if_pos hlt, Memory.readWord_writeWord_same]
  refine ⟨rfl, rfl, fun k => ?_⟩
  rw [Memory.read_writeWord_hi_first, ho, if_pos rfl, cellKey_add]

/-- Settles O39: the first byte's region decides, and its device serves the whole access or none of it. -/
theorem straddlingAccessStaysOnFirstDevice : Obligations.StraddlingAccessStaysOnFirstDevice := by
  intro rs id size start last remap a v σ hfind
  obtain ⟨hr, ho⟩ := Device.resolve_mapper_of_find hfind
  obtain ⟨-, hread, -, hwrite⟩ := Device.operations_eq_of_resolve hr σ
  dsimp only at ho ⊢
  rw [hread, hwrite, Device.readU16_memory, Device.writeU16_memory, ← ho, cellKey_add]
  exact ⟨fun h => ⟨if_pos h, if_pos h⟩, fun h => ⟨if_neg (Nat.not_lt.mpr h), if_neg (Nat.not_lt.mpr h)⟩⟩

/-- Settles O40. -/
theorem mapRefusesEmptyRange : Obligations.MapRefusesEmptyRange := by
  intro d start last remap mapped
  simp only [mapRegion, ite_eq_left_iff, reduceCtorEq, imp_false, not_not, Option.ite_none_left_eq_some,
    Option.some.injEq, true_and]
  rintro rs ⟨hlt, rfl⟩
  refine ⟨rfl, fun hd hm => ?_⟩
  rw [Regions.wf, decide_eq_true (BitVec.not_le.mp hlt), hd, hm]
  rfl

/-- Settles O41: the default address space serves every access as its one memory of 65536 bytes does, at the same address. -/
theorem defaultSpaceIsFlatMemory : Obligations.DefaultSpaceIsFlatMemory := by
  intro a σ
  obtain ⟨hr8, hr16, -, hw16⟩ := Device.operations_eq_of_resolve (Device.resolve_default a) σ
  have ha : a ≠ 0xFFFF ↔ a.toNat + 1 < 65536 := by
    have := a.isLt
    rw [ne_eq, ← BitVec.toNat_inj]
    show ¬ a.toNat = 65535 ↔ _
    omega
  simp only [hr8, hr16, hw16, Device.readU8_memory, Device.readU16_memory, Device.writeU16_memory, cellKey_zero]
  refine ⟨if_pos a.isLt, fun h => ⟨if_pos (ha.mp h), fun v => if_pos (ha.mp h)⟩, fun h => ?_⟩
  have hn : ¬ a.toNat + 1 < 65536 := fun hlt => ha.mpr hlt h
  exact ⟨if_neg hn, fun v => if_neg hn⟩

/-- Settles O57. -/
theorem peripheralOperationIsRecorded : Obligations.PeripheralOperationIsRecorded := by
  intro id o σ σ'
  refine ⟨fun b => ?_, fun v => ?_, fun b => ?_, fun v => ?_⟩
  · rw [Device.readU8_peripheral_eq_some, DeviceState.eq_mk_iff]
  · rw [Device.readU16_peripheral_eq_some, DeviceState.eq_mk_iff]
  · rw [Device.writeU8_peripheral_eq_some, DeviceState.eq_mk_iff]
  · rw [Device.writeU16_peripheral_eq_some, DeviceState.eq_mk_iff]

/-! ### The instructions on memory -/

/-- Settles O42: each fetch helper reads the memory bytes behind its address, and after the store those are the stored word's
two bytes and, elsewhere, the old ones. -/
theorem storeIsSeenByNextFetch : Obligations.StoreIsSeenByNextFetch := by
  intro r a s k hk
  refine ⟨_, finish_eq_next.mpr (memWrite16_eq_ok.mpr ⟨_, Device.writeU16_of_wordCell hk (s.reg r) s.space, rfl⟩), ?_⟩
  intro now u hσ hc
  have hnow : ∀ c, u.space.mem.read c = now c := fun c => by
    rw [hσ]; exact Memory.read_writeWord_hi_first ..
  have hbyte : ∀ {c}, s.cfg.addressSpace.byteCell (u.reg .ip) = some c →
      fetch8 u = .ok (now c, u.setReg .ip (u.reg .ip + 1)) := fun {c} h => by
    rw [← hnow]; exact fetch8_of_byteCell (hc ▸ h)
  have hword : ∀ {c}, s.cfg.addressSpace.wordCell (u.reg .ip) = some c →
      fetch16 u = .ok (joinBytes (now c) (now (c + 1)), u.setReg .ip (u.reg .ip + 2)) := fun {c} h => by
    rw [← hnow, ← hnow]; exact fetch16_of_wordCell (hc ▸ h)
  refine ⟨fun ha => ?_, fun c h => ⟨hbyte h, fun q hq => ?_, fun hp hb => ?_⟩, fun c => hword⟩
  · subst ha
    have hhi : now k = hi8 (s.reg r) := if_pos rfl
    have hlo : now (k + 1) = lo8 (s.reg r) := by simp [now]
    rw [hbyte (Device.byteCell_of_wordCell hk), hword hk, hhi, hlo, joinBytes_hi_lo]
    exact ⟨rfl, rfl⟩
  · exact fetchReg_of_byteCell (hc ▸ h) (by rwa [hnow, hc])
  · rw [← hnow]
    exact fetchReg_of_byteCell_invalid (hc ▸ h) (by rwa [hc]) (by rwa [hnow])

/-- Settles O49: an instruction performs its own operations and nothing else, and those store to its own bytes. -/
theorem instructionsStoreOnlyTheirBytes : Obligations.InstructionsStoreOnlyTheirBytes := by
  intro i s t h k hk
  rw [← flatMap_storedKeys_dataOps] at hk
  exact performAll_read_other (exec_performs h) hk

/-- Settles O50: the events are those that performing the step's operations leaves in the record. -/
theorem peripheralRecordGrows : Obligations.PeripheralRecordGrows := by
  intro s t h d
  obtain ⟨ops, hi, hp⟩ := step_performs h
  obtain ⟨events, ht, he⟩ := performAll_trace hp
  refine ⟨ops, events, hi, hp, ht, he, events_ne_write8 he, fun hd => ?_⟩
  rw [List.filter_eq_nil_iff.mpr fun op _ => Bool.not_eq_true _ ▸ toPeripheral_of_memoryOnly hd op] at he
  exact List.forall₂_nil_left_iff.mp he

end Sys2Proof.Machine
end

section
/-!
SUPPORT. The byte strings and opcode bytes of the encoding: an instruction's operand fields in both directions, when a string
decodes, and which bytes an admitted map makes legal.
-/

namespace Sys2Proof

open Machine

/-! ### Operand fields in both directions (R77) -/

/-- The operand fields of an instruction, followed by any bytes, decode to it under either policy: `Laws.OperandRoundTrip`, one
lemma per constructor. -/
theorem decodeOperands_encodeOperands (p : OrdinalPolicy) (i : Instr) (rest : List Byte) :
    decodeOperands takeWord (takeReg p) i.mnemonic (encodeOperands i ++ rest) = .ok (i, rest) := by
  cases i with
  | movLitReg v d => exact Laws.OperandRoundTrip.movLitReg v d p rest
  | movRegReg r d => exact Laws.OperandRoundTrip.movRegReg r d p rest
  | movRegMem r a => exact Laws.OperandRoundTrip.movRegMem r a p rest
  | movMemReg a d => exact Laws.OperandRoundTrip.movMemReg a d p rest
  | addRegReg q r => exact Laws.OperandRoundTrip.addRegReg q r p rest
  | jmpNotEq v t => exact Laws.OperandRoundTrip.jmpNotEq v t p rest
  | pshLit v => exact Laws.OperandRoundTrip.pshLit v p rest
  | pshReg r => exact Laws.OperandRoundTrip.pshReg r p rest
  | pop d => exact Laws.OperandRoundTrip.pop d p rest
  | calLit t => exact Laws.OperandRoundTrip.calLit t p rest
  | calReg r => exact Laws.OperandRoundTrip.calReg r p rest
  | ret => exact Laws.OperandRoundTrip.ret p rest
  | hlt => exact Laws.OperandRoundTrip.hlt p rest

/-- Under `fault` the operands decoded for a mnemonic are those of an instruction of that mnemonic, and the bytes read are its
fields: each field has one encoding, and the decoder reads the fields in the encoder's order. -/
theorem decodeOperands_eq_ok {k : Mnemonic} {bs rest : List Byte} {i : Instr}
    (h : decodeOperands takeWord (takeReg .fault) k bs = .ok (i, rest)) :
    i.mnemonic = k ∧ bs = encodeOperands i ++ rest := by
  cases k <;>
    simp only [decodeOperands, bind_eq_ok, Prod.exists, takeWord_eq_ok, takeReg_eq_ok, Except.ok.injEq, Prod.mk.injEq] at h
  case movLitReg | movRegReg | movRegMem | movMemReg | addRegReg | jmpNotEq =>
    obtain ⟨x, _, rfl, y, _, rfl, rfl, rfl⟩ := h
    exact ⟨rfl, (List.append_assoc ..).symm⟩
  case pshLit | pshReg | pop | calLit | calReg =>
    obtain ⟨x, _, rfl, rfl, rfl⟩ := h
    exact ⟨rfl, rfl⟩
  case ret | hlt =>
    obtain ⟨rfl, rfl⟩ := h
    exact ⟨rfl, rfl⟩

/-- A string decodes exactly when its first byte selects a mnemonic and the operands of that mnemonic decode (R80, R83). -/
theorem decode_eq_ok {m : OpcodeMap} {p : OrdinalPolicy} {code rest : List Byte} {i : Instr} :
    decode m p code = .ok (i, rest) ↔ ∃ b bs k, code = b :: bs ∧ decodeOpcode m b = .instr k ∧
      decodeOperands takeWord (takeReg p) k bs = .ok (i, rest) := by
  cases code with
  | nil => simp [decode]
  | cons b bs => cases hb : decodeOpcode m b <;> simp [decode, hb]

/-! ### What an opcode byte selects (R79, R80) -/

theorem decodeOpcode_eq_instr_iff {m : OpcodeMap} (h : m.wf = true) {b : Byte} {k : Mnemonic} :
    decodeOpcode m b = .instr k ↔ m.byte k = b :=
  ⟨decodeOpcode_eq_instr, fun e => e ▸ decodeOpcode_byte h k⟩

/-- A byte selects no mnemonic unless it is the byte of one. -/
theorem byte_ne_of_decodeOpcode {m : OpcodeMap} (h : m.wf = true) {b : Byte} (hb : ∀ k, decodeOpcode m b ≠ .instr k)
    (k : Mnemonic) : m.byte k ≠ b :=
  fun e => hb k ((decodeOpcode_eq_instr_iff h).mpr e)

theorem decodeOpcode_eq_endOfProgram_iff {m : OpcodeMap} (h : m.wf = true) {b : Byte} :
    decodeOpcode m b = .endOfProgram ↔ (∀ k, m.byte k ≠ b) ∧ b = 0x00 :=
  ⟨fun e => ⟨byte_ne_of_decodeOpcode h (by simp [e]), decodeOpcode_eq_endOfProgram e⟩,
   fun ⟨hk, hb⟩ => by rw [decodeOpcode_of_not_opcode hk, if_pos hb]⟩

theorem decodeOpcode_eq_unknown_iff {m : OpcodeMap} (h : m.wf = true) {b : Byte} :
    decodeOpcode m b = .unknown ↔ (∀ k, m.byte k ≠ b) ∧ b ≠ 0x00 := by
  constructor
  · intro e
    have hk := byte_ne_of_decodeOpcode h (b := b) (by simp [e])
    refine ⟨hk, fun hb => ?_⟩
    rw [decodeOpcode_of_not_opcode hk, if_pos hb] at e
    cases e
  · rintro ⟨hk, hb⟩
    rw [decodeOpcode_of_not_opcode hk, if_neg hb]

/-! ### How many bytes are legal (R81) -/

/-- The bytes that are not illegal: the 0x00 marker and the thirteen opcodes. -/
def OpcodeMap.legalBytes (m : OpcodeMap) : List Byte := 0x00 :: Mnemonic.all.map m.byte

theorem OpcodeMap.length_legalBytes (m : OpcodeMap) : m.legalBytes.length = 14 := rfl

/-- An admitted map gives no two meanings to one byte. -/
theorem OpcodeMap.nodup_legalBytes {m : OpcodeMap} (h : m.wf = true) : m.legalBytes.Nodup := by
  obtain ⟨hn, h0, -⟩ := OpcodeMap.wf_iff.mp h
  exact List.nodup_cons.mpr ⟨by simpa using fun k _ => h0 k, hn⟩

/-- The illegal bytes are all the others. -/
theorem decodeOpcode_eq_unknown_iff_notMem {m : OpcodeMap} (h : m.wf = true) {b : Byte} :
    decodeOpcode m b = .unknown ↔ b ∉ m.legalBytes := by
  simp [decodeOpcode_eq_unknown_iff h, OpcodeMap.legalBytes, Mnemonic.mem_all, and_comm]

/-- Every byte, once. -/
def allBytes : List Byte := (List.range 256).map (BitVec.ofNat 8)

theorem length_allBytes : allBytes.length = 256 := by simp [allBytes]

theorem mem_allBytes (b : Byte) : b ∈ allBytes :=
  List.mem_map.mpr ⟨b.toNat, List.mem_range.mpr b.isLt, by simp⟩

theorem nodup_allBytes : allBytes.Nodup := by
  refine List.Nodup.map_on (fun x hx y hy e => ?_) List.nodup_range
  have hxy : x % 256 = y % 256 := by simpa using congrArg BitVec.toNat e
  rwa [Nat.mod_eq_of_lt (List.mem_range.mp hx), Nat.mod_eq_of_lt (List.mem_range.mp hy)] at hxy

/-- A list of distinct bytes leaves the rest of the 256 outside it. -/
theorem countP_notMem_allBytes {l : List Byte} (h : l.Nodup) :
    allBytes.countP (fun b => decide (b ∉ l)) = 256 - l.length := by
  have hin : (allBytes.filter (· ∈ l)).Perm l :=
    (List.perm_ext_iff_of_nodup (nodup_allBytes.filter _) h).mpr fun b => by simp [mem_allBytes]
  have hsum := List.length_eq_countP_add_countP (fun b => decide (b ∈ l)) (l := allBytes)
  rw [length_allBytes, List.countP_eq_length_filter, hin.length_eq] at hsum
  simp only [decide_eq_true_eq] at hsum
  omega

end Sys2Proof
end

section
/-!
PROOFS. The obligations of spec/30_encoding.md: the round trips of the encoding, the opcode bytes, the ordinals and the fetch
helpers.
-/

namespace Sys2Proof.Machine

/-- Settles O28: the opcode byte selects the mnemonic, and its operand fields decode to the operands they encode. -/
theorem decodeOfEncode : Obligations.DecodeOfEncode := fun m p i rest hm =>
  decode_eq_ok.mpr ⟨m.byte i.mnemonic, encodeOperands i ++ rest, i.mnemonic, rfl, decodeOpcode_byte hm i.mnemonic,
    decodeOperands_encodeOperands p i rest⟩

/-- Settles O29: the opcode byte is that of the mnemonic it selects, and under `fault` each operand field has one encoding. -/
theorem encodeOfDecode : Obligations.EncodeOfDecode := by
  intro m code rest i h
  obtain ⟨b, bs, k, rfl, hk, ho⟩ := decode_eq_ok.mp h
  obtain ⟨rfl, rfl⟩ := decodeOperands_eq_ok ho
  rw [encode, decodeOpcode_eq_instr hk, List.cons_append]

/-- Settles O30. -/
theorem opcodeByteSelects : Obligations.OpcodeByteSelects := fun _ _ h =>
  ⟨fun _ => decodeOpcode_eq_instr_iff h, decodeOpcode_eq_endOfProgram_iff h, decodeOpcode_eq_unknown_iff h⟩

/-- Settles O31: of the 256 bytes exactly the fourteen distinct legal ones are not illegal. -/
theorem illegalOpcodeBytesNumber242 : Obligations.IllegalOpcodeBytesNumber242 := by
  refine ⟨by decide, fun m h => ?_⟩
  have hp : ∀ b, (decodeOpcode m b == .unknown) = decide (b ∉ m.legalBytes) := fun b => by
    rw [Bool.eq_iff_iff, beq_iff_eq, decide_eq_true_eq, decodeOpcode_eq_unknown_iff_notMem h]
  have hcount := countP_notMem_allBytes (OpcodeMap.nodup_legalBytes h)
  rw [OpcodeMap.length_legalBytes, allBytes, List.countP_map] at hcount
  simp only [hp]
  exact hcount

/-- Settles O32. -/
theorem ordinalByteNamesRegister : Obligations.OrdinalByteNamesRegister := fun b r =>
  ⟨by simp [regOfByte_eq_none], by simp [regOfByte_eq_some], by simp [regOfByte_eq_some], by simp [regOfByte_eq_none]⟩

/-- Settles O33: each helper is one access at IP, and what the access answers decides. -/
theorem fetchHelpersReadAtIP : Obligations.FetchHelpersReadAtIP := by
  intro s
  refine ⟨fun h => ⟨fetch8_eq_error.mpr ⟨h, rfl⟩, fetchReg_eq_error.mpr (.inl ⟨h, rfl⟩)⟩,
    fun h => fetch16_eq_error.mpr ⟨h, rfl⟩, fun w σ h => fetch16_eq_ok.mpr ⟨σ, h, rfl⟩, fun b σ h =>
    ⟨fetch8_eq_ok.mpr ⟨σ, h, rfl⟩, fun hp hb => ?_, fun r hr => ?_⟩⟩
  · exact fetchReg_eq_error.mpr (.inr ⟨b, σ, h, regOfByte_eq_none.mpr ⟨hp, hb⟩, rfl⟩)
  · exact fetchReg_eq_ok.mpr ⟨b, σ, h, regOfByte_eq_some.mpr hr, rfl⟩

/-- Settles O34. -/
theorem specExamplesDecode : Obligations.SpecExamplesDecode := ⟨rfl, rfl, rfl, rfl, rfl⟩

end Sys2Proof.Machine
end

section
/-!
SUPPORT. A step from its opcode on: each operand helper's answer decides what is left of the step, whichever instruction it is.
And the loading and storing instructions by what the Device answers.
-/

namespace Sys2Proof.Machine

/-! ### The rest of a step after its opcode fetch (R72, R138) -/

/-- What a step does with the answer of its operand fetches: it executes the instruction, or ends with the error. -/
def executeOperands (x : Except Fault (Instr × State)) : Host.Outcome State Fault Refusal :=
  execute (x.map fun y => (.instr y.1, y.2))

@[simp] theorem executeOperands_ok (i : Instr) (s : State) : executeOperands (.ok (i, s)) = exec i s := rfl
@[simp] theorem executeOperands_error (f : Fault) : executeOperands (.error f) = .fault f := rfl

theorem step_eq_executeOperands {s : State} {k : Mnemonic} {A : Word} {σ : DeviceState} (h : AtOpcode s k A σ) :
    step s = executeOperands (decodeOperands fetch16 fetchReg k (s.fetchedTo (A + 1) σ)) :=
  step_of_atOpcode h

/-- Where fetch16 at `A + n` is the next thing a step does, the step has a 16-bit operand there, and goes on two bytes on. -/
theorem wordOperand_of_bind {s : State} {A n : Word} {σ : DeviceState} {P : Word → DeviceState → Prop}
    {f : Word × State → Except Fault (Instr × State)}
    (h : step s = executeOperands (fetch16 (s.fetchedTo (A + n) σ) >>= f))
    (hP : ∀ v τ, step s = executeOperands (f (v, s.fetchedTo (A + (n + 2)) τ)) → P v τ) :
    WordOperand s (A + n) σ P := by
  refine wordOperand_of_fetch (fun e he => ?_) fun v τ hv => hP v τ ?_
  · rw [h, he, error_bind, executeOperands_error]
  · rw [h, hv, ok_bind, BitVec.add_assoc]

/-- Where fetch_reg at `A + n` is the next thing a step does, the step has a register operand there, and goes on one byte on. -/
theorem regOperand_of_bind {s : State} {A n : Word} {σ : DeviceState} {P : Reg → DeviceState → Prop}
    {f : Reg × State → Except Fault (Instr × State)}
    (h : step s = executeOperands (fetchReg (s.fetchedTo (A + n) σ) >>= f))
    (hP : ∀ r τ, step s = executeOperands (f (r, s.fetchedTo (A + (n + 1)) τ)) → P r τ) :
    RegOperand s (A + n) σ P := by
  refine regOperand_of_fetch (fun e he => ?_) fun r τ hr => hP r τ ?_
  · rw [h, he, error_bind, executeOperands_error]
  · rw [h, hr, ok_bind, BitVec.add_assoc]

/-! ### The register written -/

theorem reg_setReg_self (s : State) (r : Reg) (v : Word) : (s.setReg r v).reg r = v := by rw [reg_setReg, if_pos rfl]

/-! ### MOV_REG_MEM and MOV_MEM_REG by the Device operation they issue (R92, R93) -/

theorem exec_movRegMem_of_write {r : Reg} {a : Word} {s : State} {σ : DeviceState}
    (h : s.cfg.addressSpace.writeU16 a (s.reg r) s.space = some σ) : exec (.movRegMem r a) s = .next (s.setSpace σ) :=
  finish_eq_next.mpr (memWrite16_eq_ok.mpr ⟨σ, h, rfl⟩)

theorem exec_movRegMem_of_failed_write {r : Reg} {a : Word} {s : State}
    (h : s.cfg.addressSpace.writeU16 a (s.reg r) s.space = none) :
    exec (.movRegMem r a) s = .fault (.addressRange a .write16) :=
  finish_eq_fault.mpr (memWrite16_eq_error.mpr ⟨h, rfl⟩)

theorem exec_movMemReg_of_read {a v : Word} {d : Reg} {s : State} {σ : DeviceState}
    (h : s.cfg.addressSpace.readU16 a s.space = some (v, σ)) :
    exec (.movMemReg a d) s = .next ((s.setSpace σ).setReg d v) :=
  exec_movMemReg_eq_next.mpr ⟨v, _, memRead16_eq_ok.mpr ⟨σ, h, rfl⟩, rfl⟩

theorem exec_movMemReg_of_failed_read {a : Word} {d : Reg} {s : State}
    (h : s.cfg.addressSpace.readU16 a s.space = none) :
    exec (.movMemReg a d) s = .fault (.addressRange a .read16) :=
  exec_movMemReg_eq_fault.mpr (memRead16_eq_error.mpr ⟨h, rfl⟩)

end Sys2Proof.Machine
end

section
/-!
PROOFS. The obligations of spec/40_move.md: what each of the four moves does, and the operands its step fetches.
-/

namespace Sys2Proof.Machine

/-- Settles O1: the execution is one register write; the operands are a word, then a register. -/
theorem movLitRegLoadsLiteral : Obligations.MovLitRegLoadsLiteral := by
  refine ⟨fun v d s => ⟨s.setReg d v, rfl, reg_setReg_self .., (setReg_keeps ..).regs, rfl, rfl, rfl, rfl⟩,
    fun s A σ h => ?_⟩
  exact wordOperand_of_bind (step_eq_executeOperands h) fun v τ h => regOperand_of_bind h fun d υ h => h

/-- Settles O2: the execution is one register write, of the first operand's value; both operands are registers. -/
theorem movRegRegCopiesSource : Obligations.MovRegRegCopiesSource := by
  refine ⟨fun r d s => ⟨s.setReg d (s.reg r), rfl, reg_setReg_self .., (setReg_keeps ..).regs, rfl, rfl, rfl, rfl⟩,
    fun s A σ h => ?_⟩
  exact regOperand_of_bind (step_eq_executeOperands h) fun r τ h => regOperand_of_bind h fun d υ h => h

/-- Settles O3: the execution is one word write, and a memory device's word write puts the high byte first. -/
theorem movRegMemStoresWord : Obligations.MovRegMemStoresWord := by
  refine ⟨fun r a s => ⟨exec_movRegMem_of_failed_write, fun σ h => ?_⟩, fun r a s k hk => ?_, fun s A σ h => ?_⟩
  · exact ⟨s.setSpace σ, exec_movRegMem_of_write h, fun _ _ => rfl, rfl, rfl, rfl, rfl⟩
  · refine ⟨_, exec_movRegMem_of_write (Device.writeU16_of_wordCell hk ..), ?_, ?_, fun q hq => ?_, rfl⟩
    · exact (Memory.read_writeWord_hi_first ..).trans (if_pos rfl)
    · exact (Memory.read_writeWord_hi_first ..).trans (by simp)
    · obtain ⟨hhi, hlo⟩ : q ≠ k ∧ q ≠ k + 1 := by simpa using hq
      exact (Memory.read_writeWord_hi_first ..).trans (by rw [if_neg hhi, if_neg hlo])
  · exact regOperand_of_bind (step_eq_executeOperands h) fun r τ h => wordOperand_of_bind h fun a υ h => h

/-- Settles O4: the execution is one word read followed by one register write, and a memory device's read changes nothing. -/
theorem movMemRegLoadsWord : Obligations.MovMemRegLoadsWord := by
  refine ⟨fun a d s => ⟨exec_movMemReg_of_failed_read, fun v σ h => ?_⟩, fun a d s k hk => ?_, fun s A σ h => ?_⟩
  · exact ⟨_, exec_movMemReg_of_read h, reg_setReg_self .., (setReg_keeps (s.setSpace σ) d v).regs, rfl, rfl, rfl, rfl⟩
  · exact ⟨_, exec_movMemReg_of_read (Device.readU16_of_wordCell hk _), reg_setReg_self .., rfl⟩
  · exact wordOperand_of_bind (step_eq_executeOperands h) fun a τ h => regOperand_of_bind h fun d υ h => h

end Sys2Proof.Machine
end

section
/-!
SUPPORT. The 16-bit sum: its value as a natural number, and that the order of its operands does not matter.
-/

namespace Sys2Proof.Machine

/-- R101: the sum keeps its low 16 bits; the carry out of bit 15 is lost (the spec's D2). -/
@[simp] theorem toNat_add16 (a b : Word) : (add16 a b).toNat = (a.toNat + b.toNat) % 65536 := BitVec.toNat_add a b

theorem add16_comm (a b : Word) : add16 a b = add16 b a := BitVec.add_comm a b

theorem exec_addRegReg (p q : Reg) (s : State) :
    exec (.addRegReg p q) s = .next (s.setReg .acc (add16 (s.reg p) (s.reg q))) := rfl

end Sys2Proof.Machine
end

section
/-!
PROOFS. The obligation of spec/41_arith.md: what the addition does, and the operands its step fetches.
-/

namespace Sys2Proof.Machine

/-- Settles O5: the execution is one register write, of a sum that does not depend on the order; both operands are
registers. -/
theorem addRegRegSumsIntoAcc : Obligations.AddRegRegSumsIntoAcc := by
  refine ⟨fun p q s => ⟨s.setReg .acc (add16 (s.reg p) (s.reg q)), exec_addRegReg .., ?sum, ?swapped,
    (setReg_keeps ..).regs, rfl, rfl, rfl, rfl⟩, fun s A σ h => ?operands⟩
  case sum => rw [reg_setReg_self, toNat_add16]
  case swapped => rw [exec_addRegReg, add16_comm]
  case operands =>
    exact regOperand_of_bind (step_eq_executeOperands h) fun p τ h => regOperand_of_bind h fun q υ h => h

end Sys2Proof.Machine
end

section
/-!
SUPPORT. JMP_NOT_EQ by its two outcomes and by the operands its step fetches; a state that a step leads back to itself.
-/

namespace Sys2Proof.Machine

/-! ### The two outcomes of JMP_NOT_EQ (R105) -/

@[simp] theorem branchTaken_iff {acc v : Word} : branchTaken acc v = true ↔ acc ≠ v := bne_iff_ne

theorem exec_jmpNotEq_of_ne {v : Word} {s : State} (h : s.reg .acc ≠ v) (a : Word) :
    exec (.jmpNotEq v a) s = .next (s.setReg .ip a) :=
  congrArg _ (if_pos (branchTaken_iff.mpr h))

theorem exec_jmpNotEq_of_eq {v : Word} {s : State} (h : s.reg .acc = v) (a : Word) :
    exec (.jmpNotEq v a) s = .next s :=
  congrArg _ (if_neg fun ht => branchTaken_iff.mp ht h)

/-! ### The operands of JMP_NOT_EQ (R74, R105) -/

/-- The literal's word first, then the target's. -/
theorem step_jmpNotEq_of_atOpcode {s : State} {A : Word} {σ : DeviceState} (h : AtOpcode s .jmpNotEq A σ) :
    WordOperand s (A + 1) σ fun v σ => WordOperand s (A + 3) σ fun a σ =>
      step s = exec (.jmpNotEq v a) (s.fetchedTo (A + 5) σ) :=
  wordOperand_of_bind (step_eq_executeOperands h) fun _ _ hv => wordOperand_of_bind hv fun _ _ ha => ha

/-- The three accesses that reach a JMP_NOT_EQ held in memory devices: its opcode, its literal and its target. -/
theorem fields_of_codeAt_jmpNotEq {s : State} {m : OpcodeMap} {A v a : Word}
    (h : CodeAt s .jmpNotEq A (encode m (.jmpNotEq v a))) :
    s.byteAt A = some (m.byte .jmpNotEq) ∧ s.wordAt (A + 1) = some v ∧ s.wordAt (A + 3) = some a := by
  obtain ⟨hbytes, hwords⟩ := h
  refine ⟨?opcode, ?literal, ?target⟩
  case opcode => exact (congrArg s.byteAt (BitVec.add_zero A).symm).trans (hbytes 0 (by decide))
  case literal => exact (hwords 1 (by decide)).trans (congrArg some (joinBytes_hi_lo v))
  case target => exact (hwords 3 (by decide)).trans (congrArg some (joinBytes_hi_lo a))

theorem step_jmpNotEq_of_codeAt {s : State} {v a : Word} (hw : s.cfg.wf = true) (hs : s.status = .running)
    (h : CodeAt s .jmpNotEq (s.reg .ip) (encode s.cfg.opcodes (.jmpNotEq v a))) :
    step s = exec (.jmpNotEq v a) (s.fetchedTo (s.reg .ip + 5) s.space) := by
  obtain ⟨hopcode, hliteral, htarget⟩ := fields_of_codeAt_jmpNotEq h
  obtain ⟨-, hrest⟩ := step_jmpNotEq_of_atOpcode ⟨hw, hs, rfl, readU8_of_byteAt hopcode⟩
  obtain ⟨-, hexec⟩ := hrest v s.space (readU16_of_wordAt hliteral)
  exact hexec a s.space (readU16_of_wordAt htarget)

/-! ### Back to the state before the fetch -/

/-- A fetch that left the address space as it was is undone by the jump back to where it began. -/
theorem setReg_ip_fetchedTo (s : State) (A : Word) : (s.fetchedTo A s.space).setReg .ip (s.reg .ip) = s := by
  refine State.ext_reg (fun r => ?_) rfl rfl rfl rfl
  by_cases h : r = .ip <;> simp [h]

/-! ### Runs that stay in one state (R139) -/

theorem goOn_next_of_running {run : State → Host.Outcome State Fault Refusal} {t : State} (h : t.status = .running) :
    goOn run (.next t) = run t := if_pos h

theorem runFor_of_step_self {s : State} (hs : s.status = .running) (h : step s = .next s) (fuel : Nat) :
    runFor fuel s = .next s := by
  induction fuel with
  | zero => exact runFor_zero s
  | succ fuel ih => rw [runFor_succ, h, goOn_next_of_running hs, ih]

theorem hangs_of_step_self {s : State} (hs : s.status = .running) (h : step s = .next s) : Hangs s :=
  fun fuel => ⟨s, runFor_of_step_self hs h fuel, hs⟩

end Sys2Proof.Machine
end

section
/-!
PROOFS. The obligations of spec/42_branch.md: the two outcomes of the branch, and the branch to itself.
-/

namespace Sys2Proof.Machine

/-- Settles O6: a branch not taken leaves the state as it is, and one taken is a write of IP; both operands are words. -/
theorem jmpNotEqBranches : Obligations.JmpNotEqBranches := by
  refine ⟨fun v a s => ?_, fun _ _ _ h => step_jmpNotEq_of_atOpcode h⟩
  by_cases h : s.reg .acc = v
  · exact ⟨s, exec_jmpNotEq_of_eq h a, (absurd h ·), fun _ => rfl, fun _ _ => rfl, rfl, rfl, rfl, rfl⟩
  · exact ⟨s.setReg .ip a, exec_jmpNotEq_of_ne h a, fun _ => reg_setReg_self .., (absurd · h), (setReg_keeps ..).regs,
      rfl, rfl, rfl, rfl⟩

/-- Settles O7: the fetch moves IP alone and the taken branch moves it back, so that each step ends in the state in which it
began. -/
theorem jmpNotEqToItselfHangs : Obligations.JmpNotEqToItselfHangs := by
  intro s v hw hs hv hcode
  have hne : (s.fetchedTo (s.reg .ip + 5) s.space).reg .acc ≠ v := by simpa using hv
  have hself : step s = .next s := by
    rw [step_jmpNotEq_of_codeAt hw hs hcode, exec_jmpNotEq_of_ne hne, setReg_ip_fetchedTo]
  exact ⟨hself, hangs_of_step_self hs hself⟩

end Sys2Proof.Machine
end

section
/-!
SUPPORT. Pushes and pops that memory devices serve, on the states `pushed s n σ`; the frame of those states; and POP by the
Device operation it issues.
-/

namespace Sys2Proof.Machine

/-! ### The states after pushes and pops -/

theorem pushed_keeps (s : State) (n : Nat) (σ : DeviceState) : Keeps s (pushed s n σ) [.sp] where
  regs := (setReg_keeps (s.setSpace σ) .sp _).regs
  cfg := rfl
  status := rfl

theorem popped_keeps (s : State) (n : Nat) (σ : DeviceState) : Keeps s (popped s n σ) [.sp] where
  regs := (setReg_keeps (s.setSpace σ) .sp _).regs
  cfg := rfl
  status := rfl

/-- With SP and sfs back where they were, only the address space can differ. -/
theorem pushed_zero_eq_setSpace (s : State) (σ : DeviceState) : pushed s 0 σ = s.setSpace σ := pushed_zero (s.setSpace σ)

theorem reg_sp_pushed_succ_add_two (s : State) (n : Nat) (σ : DeviceState) :
    (pushed s (n + 1) σ).reg .sp + 2 = pushAddr s n := by
  rw [reg_pushed, if_pos rfl, pushAddr, pushAddr, ofNat_two_mul_succ, BitVec.add_comm 2, sub_add_eq_sub_sub,
    BitVec.sub_add_cancel]

theorem sfs_pushed_succ_sub_two (s : State) (n : Nat) (σ : DeviceState) :
    (pushed s (n + 1) σ).sfs - 2 = s.sfs + BitVec.ofNat 16 (2 * n) := by
  rw [sfs_pushed, ofNat_two_mul_succ, BitVec.add_comm 2, ← BitVec.add_assoc, BitVec.add_sub_cancel]

/-- A pop takes back the last push. -/
theorem popped_one_pushed_succ (s : State) (n : Nat) (σ τ : DeviceState) :
    popped (pushed s (n + 1) σ) 1 τ = pushed s n τ := by
  refine State.ext_reg (fun r => ?_) (sfs_pushed_succ_sub_two ..) rfl rfl rfl
  by_cases hr : r = .sp
  · rw [hr, reg_pushed, if_pos rfl]
    exact reg_sp_pushed_succ_add_two s n σ
  · simp [hr]

/-! ### Pushes and pops of words that memory devices back (R110 to R113) -/

theorem push_of_wordCell {s : State} {k : Nat} {v : Word} (h : s.cfg.addressSpace.wordCell (s.reg .sp) = some k) :
    push v s = .ok (pushed s 1 { s.space with mem := s.space.mem.writeWord k v }) :=
  push_of_write (Device.writeU16_of_wordCell h v s.space)

theorem push_pushed_of_wordCell {s : State} {n k : Nat} {σ : DeviceState} {v : Word}
    (h : s.cfg.addressSpace.wordCell (pushAddr s n) = some k) :
    push v (pushed s n σ) = .ok (pushed s (n + 1) { σ with mem := σ.mem.writeWord k v }) :=
  (push_of_wordCell h).trans (congrArg _ (pushed_pushed ..))

theorem pop_pushed_of_wordCell {s : State} {n k : Nat} {σ : DeviceState} {v : Word}
    (h : s.cfg.addressSpace.wordCell (pushAddr s n) = some k) (hv : σ.mem.readWord k = v) :
    pop (pushed s (n + 1) σ) = .ok (v, pushed s n σ) := by
  have hread : s.cfg.addressSpace.readU16 ((pushed s (n + 1) σ).reg .sp + 2) σ = some (v, σ) := by
    rw [reg_sp_pushed_succ_add_two, Device.readU16_of_wordCell h, hv]
  rw [pop_of_read hread, popped_one_pushed_succ]

theorem pushAll_of_wordCells {vs : List Word} {s : State} {cell : Nat → Nat}
    (h : ∀ j, j < vs.length → s.cfg.addressSpace.wordCell (pushAddr s j) = some (cell j)) :
    pushAll vs s = .ok (pushed s vs.length (cellStates cell (vs.getD · 0) s.space vs.length)) :=
  pushAll_of_writes rfl (servicedWrites_of_wordCells s.space h)

/-! ### The instructions by the Device operation they issue (R114 to R116) -/

/-- PSH_LIT and PSH_REG end so, each with the value it pushes. -/
theorem finish_push_of_write {s : State} {v : Word} {σ : DeviceState}
    (h : s.cfg.addressSpace.writeU16 (s.reg .sp) v s.space = some σ) : finish (push v s) = .next (pushed s 1 σ) :=
  finish_eq_next.mpr (push_of_write h)

theorem finish_push_of_failed_write {s : State} {v : Word}
    (h : s.cfg.addressSpace.writeU16 (s.reg .sp) v s.space = none) :
    finish (push v s) = .fault (.addressRange (s.reg .sp) .write16) :=
  finish_eq_fault.mpr (push_eq_error.mpr ⟨h, rfl⟩)

theorem exec_pop_of_read {d : Reg} {s : State} {v : Word} {σ : DeviceState}
    (h : s.cfg.addressSpace.readU16 (s.reg .sp + 2) s.space = some (v, σ)) :
    exec (.pop d) s = .next ((popped s 1 σ).setReg d v) :=
  exec_pop_eq_next.mpr ⟨v, _, pop_of_read h, rfl⟩

theorem exec_pop_of_failed_read {d : Reg} {s : State}
    (h : s.cfg.addressSpace.readU16 (s.reg .sp + 2) s.space = none) :
    exec (.pop d) s = .fault (.addressRange (s.reg .sp + 2) .read16) :=
  exec_pop_eq_fault.mpr (pop_eq_error.mpr ⟨h, rfl⟩)

end Sys2Proof.Machine
end

section
/-!
PROOFS. The obligations of spec/43_stack.md: push and pop, the layout and the order of what is pushed, and the three stack
instructions over them.
-/

namespace Sys2Proof.Machine

/-! ### push and pop (R110, R111) -/

/-- Settles O8: a push is one write, and `pushed` by one if that is serviced. -/
theorem pushWritesThenLowersSP : Obligations.PushWritesThenLowersSP := by
  refine fun v s => ⟨fun h => push_eq_error.mpr ⟨h, rfl⟩, fun σ h => ?_⟩
  exact ⟨pushed s 1 σ, push_of_write h, rfl, rfl, rfl, (pushed_keeps ..).regs, rfl, rfl⟩

/-- Settles O9: a pop is one read, and `popped` by one if that is serviced. -/
theorem popRaisesSPThenReads : Obligations.PopRaisesSPThenReads := by
  refine fun s => ⟨fun h => pop_eq_error.mpr ⟨h, rfl⟩, fun v σ h => ?_⟩
  exact ⟨popped s 1 σ, pop_of_read h, rfl, rfl, rfl, (popped_keeps ..).regs, rfl, rfl⟩

/-! ### The layout of the stack (R112, R113) -/

/-- Settles O10: each pop takes back the last push not yet popped, and the second push left the first one's word as it was. -/
theorem pushPushPopPopIsLifo : Obligations.PushPushPopPopIsLifo := by
  intro s v w k l hk hl hapart
  have hk0 : s.cfg.addressSpace.wordCell (pushAddr s 0) = some k := by simpa [pushAddr] using hk
  refine ⟨_, _, _, _, push_of_wordCell hk, push_pushed_of_wordCell hl,
    pop_pushed_of_wordCell hl (Memory.readWord_writeWord_same ..), pop_pushed_of_wordCell hk0 ?kept,
    ?regs, ?sfs, ?bytes, rfl⟩
  case kept => rw [Memory.readWord_writeWord_other _ _ _ _ hapart, Memory.readWord_writeWord_same]
  case regs => rw [pushed_zero_eq_setSpace]; exact fun _ _ => rfl
  case sfs => rw [pushed_zero_eq_setSpace, sfs_setSpace]
  case bytes =>
    intro q hq
    obtain ⟨hkhi, hklo, hlhi, hllo⟩ : q ≠ k ∧ q ≠ k + 1 ∧ q ≠ l ∧ q ≠ l + 1 := by simpa using hq
    rw [space_pushed, Memory.read_writeWord, if_neg hllo, if_neg hlhi, Memory.read_writeWord, if_neg hklo, if_neg hkhi]

/-- Settles O11: the pushes are writes to words apart from each other, so that each word keeps what was written to it. -/
theorem pushesLieDownward : Obligations.PushesLieDownward := by
  intro s vs cell hcell hapart
  refine ⟨_, pushAll_of_wordCells hcell, fun j hj => ?_, rfl, rfl, (pushed_keeps ..).regs, fun q hq => ?_⟩
  · rw [State.wordAt, cfg_pushed, hcell j hj, Option.map_some, space_pushed, cellStates_readWord hj hapart,
      List.getD_eq_getElem _ _ hj]
  · exact cellStates_read_other hq

/-! ### The stack instructions (R114 to R116) -/

/-- Settles O12: the execution is a push of the literal; the operand is a word. -/
theorem pshLitPushesLiteral : Obligations.PshLitPushesLiteral := by
  refine ⟨fun v s => ⟨finish_push_of_failed_write, fun σ h => ?_⟩, fun s A σ h => ?_⟩
  · exact ⟨_, finish_push_of_write h, rfl, rfl, rfl, (pushed_keeps ..).regs, rfl, rfl⟩
  · exact wordOperand_of_bind (step_eq_executeOperands h) fun v τ h => h

/-- Settles O13: the execution is a push of the value the register has before; the operand is a register. -/
theorem pshRegPushesRegister : Obligations.PshRegPushesRegister := by
  refine ⟨fun r s => ⟨finish_push_of_failed_write, fun σ h => ?_⟩, fun s A σ h => ?_⟩
  · exact ⟨_, finish_push_of_write h, rfl, rfl, rfl, (pushed_keeps ..).regs, rfl, rfl⟩
  · exact regOperand_of_bind (step_eq_executeOperands h) fun r τ h => h

/-- Settles O14: the execution is a pop followed by a write of the destination, which comes last, for SP too; the operand is
a register. -/
theorem popLoadsPoppedWord : Obligations.PopLoadsPoppedWord := by
  refine ⟨fun d s => ⟨exec_pop_of_failed_read, fun v σ h => ?_⟩, fun s A σ h => ?_⟩
  · have hdst : Keeps (popped s 1 σ) ((popped s 1 σ).setReg d v) [d] := setReg_keeps ..
    exact ⟨_, exec_pop_of_read h, reg_setReg_self .., fun hd => hdst.regs .sp (by simpa using Ne.symm hd), rfl, rfl,
      ((popped_keeps s 1 σ).trans hdst).regs, rfl, rfl⟩
  · exact regOperand_of_bind (step_eq_executeOperands h) fun d τ h => h

end Sys2Proof.Machine
end

section
/-!
SUPPORT. The two calls as one operation, a call to an address; the frame it leaves in memory; the return over words that memory
devices hold; and the frame balance.
-/

namespace Sys2Proof.Machine

/-! ### A call to an address (R122, R123) -/

/-- `i`, executed in `s`, calls the address `a`: the literal of CAL_LIT, or what CAL_REG's register holds on entry (D7). -/
abbrev CallsTo (s : State) (i : Instr) (a : Word) : Prop := i = .calLit a ∨ ∃ r, i = .calReg r ∧ s.reg r = a

theorem callsTo_calReg (s : State) (r : Reg) : CallsTo s (.calReg r) (s.reg r) := .inr ⟨r, rfl, rfl⟩

/-- Every call calls some address. -/
theorem exists_callsTo {i : Instr} (h : (∃ a, i = .calLit a) ∨ ∃ r, i = .calReg r) (s : State) : ∃ a, CallsTo s i a := by
  obtain ⟨a, rfl⟩ | ⟨r, rfl⟩ := h
  · exact ⟨a, .inl rfl⟩
  · exact ⟨s.reg r, callsTo_calReg s r⟩

theorem CallsTo.exec_eq_next {s t : State} {i : Instr} {a : Word} (hi : CallsTo s i a) :
    exec i s = .next t ↔ ∃ u, pushState s = .ok u ∧ t = u.setReg .ip a := by
  obtain rfl | ⟨r, rfl, rfl⟩ := hi
  · exact exec_calLit_eq_next
  · exact exec_calReg_eq_next

theorem CallsTo.exec_eq_fault {s : State} {i : Instr} {a : Word} {f : Fault} (hi : CallsTo s i a) :
    exec i s = .fault f ↔ pushState s = .error f := by
  obtain rfl | ⟨r, rfl, -⟩ := hi
  · exact exec_calLit_eq_fault
  · exact exec_calReg_eq_fault

/-- `s` after a call to `a` whose ten pushes left the address space in `σ`. -/
def called (s : State) (a : Word) (σ : DeviceState) : State := (framed s σ).setReg .ip a

@[simp] theorem cfg_called (s : State) (a : Word) (σ : DeviceState) : (called s a σ).cfg = s.cfg := rfl
@[simp] theorem space_called (s : State) (a : Word) (σ : DeviceState) : (called s a σ).space = σ := rfl
@[simp] theorem sfs_called (s : State) (a : Word) (σ : DeviceState) : (called s a σ).sfs = 0 := rfl
@[simp] theorem reg_ip_called (s : State) (a : Word) (σ : DeviceState) : (called s a σ).reg .ip = a := rfl
@[simp] theorem reg_sp_called (s : State) (a : Word) (σ : DeviceState) : (called s a σ).reg .sp = s.reg .sp - 20 := rfl
@[simp] theorem reg_fp_called (s : State) (a : Word) (σ : DeviceState) : (called s a σ).reg .fp = s.reg .sp - 20 := rfl

theorem called_keeps (s : State) (a : Word) (σ : DeviceState) : Keeps s (called s a σ) [.ip, .sp, .fp] where
  regs r hr := by
    obtain ⟨hip, hsp, hfp⟩ : r ≠ .ip ∧ r ≠ .sp ∧ r ≠ .fp := by simpa using hr
    simp [called, hip, hsp, hfp]
  cfg := rfl
  status := rfl

theorem CallsTo.exec_of_writes {s : State} {i : Instr} {a : Word} {σ : Nat → DeviceState} (hi : CallsTo s i a)
    (h0 : σ 0 = s.space) (h : ServicedWrites s.cfg.addressSpace 10 (pushAddr s) (frameWord s) σ) :
    exec i s = .next (called s a (σ 10)) :=
  hi.exec_eq_next.mpr ⟨_, pushState_of_writes h0 h, rfl⟩

theorem CallsTo.exec_of_failed_write {s : State} {i : Instr} {a : Word} {σ : Nat → DeviceState} {j : Nat}
    (hi : CallsTo s i a) (h0 : σ 0 = s.space) (hj : j < 10)
    (h : ServicedWrites s.cfg.addressSpace j (pushAddr s) (frameWord s) σ)
    (hf : s.cfg.addressSpace.writeU16 (pushAddr s j) (frameWord s j) (σ j) = none) :
    exec i s = .fault (.addressRange (pushAddr s j) .write16) :=
  hi.exec_eq_fault.mpr (pushState_of_failed_write h0 hj h hf)

/-! ### The frame that a call leaves in memory (R125) -/

/-- `s` after a call to `a` whose ten words memory devices back at the keys `cell 0, cell 1, …`. -/
def calledOver (s : State) (a : Word) (cell : Nat → Nat) : State :=
  called s a (cellStates cell (frameWord s) s.space 10)

theorem CallsTo.exec_of_wordCells {s : State} {i : Instr} {a : Word} {cell : Nat → Nat} (hi : CallsTo s i a)
    (h : ∀ j, j < 10 → s.cfg.addressSpace.wordCell (pushAddr s j) = some (cell j)) :
    exec i s = .next (calledOver s a cell) :=
  hi.exec_of_writes rfl (servicedWrites_of_wordCells s.space h)

theorem popAddr_eq_fp_add (s : State) (j : Nat) : popAddr s j = s.reg .fp + BitVec.ofNat 16 (2 * (j + 1)) := by
  rw [popAddr, ofNat_two_mul_succ, BitVec.add_assoc]

/-- The return takes the frame's words back in the reverse of the order in which the call pushed them. -/
theorem popAddr_called (s : State) (a : Word) (σ : DeviceState) {j : Nat} (hj : j < 10) :
    popAddr (called s a σ) j = pushAddr s (9 - j) := by
  rw [popAddr, pushAddr, reg_fp_called]
  bv_omega

/-- The word above the frame is the one last pushed before the call. -/
theorem popAddr_called_ten (s : State) (a : Word) (σ : DeviceState) : popAddr (called s a σ) 10 = s.reg .sp + 2 := by
  rw [popAddr, reg_fp_called]
  bv_omega

theorem wordAt_calledOver_frame {s : State} {a : Word} {cell : Nat → Nat} {j : Nat} (hj : j < 10)
    (hcell : ∀ j, j < 10 → s.cfg.addressSpace.wordCell (pushAddr s j) = some (cell j))
    (hapart : ∀ j l, j < l → l < 10 → cell j + 1 < cell l ∨ cell l + 1 < cell j) :
    (calledOver s a cell).wordAt (popAddr (calledOver s a cell) j) = some (frameWord s (9 - j)) := by
  have hl : 9 - j < 10 := by omega
  rw [calledOver, popAddr_called s a _ hj, State.wordAt, cfg_called, hcell _ hl, Option.map_some, space_called,
    cellStates_readWord hl hapart]

/-- Writes to words change no word apart from them. -/
theorem cellStates_readWord_other {cell : Nat → Nat} {v : Nat → Word} {σ : DeviceState} {n q : Nat}
    (h : ∀ j, j < n → q + 1 < cell j ∨ cell j + 1 < q) : (cellStates cell v σ n).mem.readWord q = σ.mem.readWord q := by
  have hhi : (cellStates cell v σ n).mem.read q = σ.mem.read q :=
    cellStates_read_other fun j hj => by have := h j hj; omega
  have hlo : (cellStates cell v σ n).mem.read (q + 1) = σ.mem.read (q + 1) :=
    cellStates_read_other fun j hj => by have := h j hj; omega
  rw [Memory.readWord, hhi, hlo, Memory.readWord]

/-! ### A return over words that memory devices hold (R121) -/

theorem step_ret_of_atOpcode {s : State} {A : Word} {σ : DeviceState} (h : AtOpcode s .ret A σ) :
    step s = exec .ret (s.fetchedTo (A + 1) σ) :=
  step_eq_executeOperands h

/-- The words of memory at the addresses that a return from `u` pops, 0 where no memory device backs one. -/
def poppedWord (u : State) (j : Nat) : Word := (u.wordAt (popAddr u j)).getD 0

theorem servicedReads_poppedWord {u : State} {n : Nat} (h : ∀ j, j < n → (u.wordAt (popAddr u j)).isSome) :
    ServicedReads u.cfg.addressSpace n (popAddr u) (poppedWord u) fun _ => u.space := fun j hj => by
  obtain ⟨v, hv⟩ := Option.isSome_iff_exists.mp (h j hj)
  rw [poppedWord, hv]
  exact readU16_of_wordAt hv

/-- Of the words that a return pops, the frame and the count decide the state it leaves; the arguments do not. -/
theorem returned_congr {v w : Nat → Word} (h : ∀ j, j < 11 → v j = w j) (s : State) (σ : DeviceState) :
    returned s v σ = returned s w σ := by
  simp [returned, h]

theorem exec_ret_of_wordAt {u : State} {w : Nat → Word} (hframe : ∀ j, j < 11 → u.wordAt (popAddr u j) = some (w j))
    (hargs : ∀ j, j < (w 10).toNat → (u.wordAt (popAddr u (11 + j))).isSome) :
    exec .ret u = .next (returned u w u.space) := by
  have hw : ∀ j, j < 11 → poppedWord u j = w j := fun j hj => by rw [poppedWord, hframe j hj, Option.getD_some]
  rw [← returned_congr hw]
  refine finish_eq_next.mpr (popState_of_reads rfl (servicedReads_poppedWord fun j hj => ?_))
  rw [hw 10 (by decide)] at hj
  by_cases h11 : j < 11
  · rw [hframe j h11, Option.isSome_some]
  · obtain ⟨l, rfl⟩ := Nat.exists_eq_add_of_le (Nat.le_of_not_lt h11)
    exact hargs l (by omega)

/-- What the return that matches a call from `s` pops (R127): the frame, from its last word to its first, then the count. -/
def matchingWord (s : State) (n : Word) (j : Nat) : Word := if j < 10 then frameWord s (9 - j) else n

/-- The call leaves the count word as it was, and the words that its return pops are the frame's and that one. -/
theorem wordAt_calledOver_matching {s : State} {a n : Word} {cell : Nat → Nat} {k j : Nat} (hj : j < 11)
    (hcell : ∀ j, j < 10 → s.cfg.addressSpace.wordCell (pushAddr s j) = some (cell j))
    (hapart : ∀ j l, j < l → l < 10 → cell j + 1 < cell l ∨ cell l + 1 < cell j)
    (hk : s.cfg.addressSpace.wordCell (s.reg .sp + 2) = some k)
    (hkapart : ∀ j, j < 10 → k + 1 < cell j ∨ cell j + 1 < k) (hn : s.wordAt (s.reg .sp + 2) = some n) :
    (calledOver s a cell).wordAt (popAddr (calledOver s a cell) j) = some (matchingWord s n j) := by
  by_cases h10 : j < 10
  · rw [wordAt_calledOver_frame h10 hcell hapart, matchingWord, if_pos h10]
  · obtain rfl : j = 10 := by omega
    rw [matchingWord, if_neg h10, ← hn, calledOver, popAddr_called_ten, State.wordAt, State.wordAt, cfg_called, hk,
      Option.map_some, Option.map_some, space_called, cellStates_readWord_other hkapart]

/-! ### The frame balance (R129) -/

@[simp] theorem balance_called (s : State) (a : Word) (σ : DeviceState) : balance (called s a σ) = 0 := by
  simp [balance]

/-- Whatever the words popped: the frame size cancels, and of the 22 bytes between FP and SP sfs takes off 20. -/
theorem balance_returned (s : State) (w : Nat → Word) (σ : DeviceState) : balance (returned s w σ) = -2 := by
  show s.reg .fp + w 0 - (s.reg .fp + 22 + 2 * w 10) - (w 0 - 20 - 2 * w 10) = -2
  bv_omega

theorem balance_setReg_of_ne {r : Reg} (hsp : r ≠ .sp) (hfp : r ≠ .fp) (s : State) (v : Word) :
    balance (s.setReg r v) = balance s := by
  simp [balance, hsp.symm, hfp.symm]

/-- SP and sfs move by 2 in opposite directions. -/
theorem balance_push {v : Word} {s t : State} (h : push v s = .ok t) : balance t = balance s := by
  obtain ⟨σ, -, rfl⟩ := push_eq_ok.mp h
  show s.reg .fp - (s.reg .sp - 2) - (s.sfs + 2) = s.reg .fp - s.reg .sp - s.sfs
  bv_omega

theorem balance_pop {v : Word} {s t : State} (h : pop s = .ok (v, t)) : balance t = balance s := by
  obtain ⟨σ, -, rfl⟩ := pop_eq_ok.mp h
  show s.reg .fp - (s.reg .sp + 2) - (s.sfs - 2) = s.reg .fp - s.reg .sp - s.sfs
  bv_omega

/-- No destination register of `i` is SP or FP. -/
abbrev SparesStackRegs (i : Instr) : Prop :=
  ∀ d, d = .sp ∨ d = .fp →
    (∀ v, i ≠ .movLitReg v d) ∧ (∀ r, i ≠ .movRegReg r d) ∧ (∀ a, i ≠ .movMemReg a d) ∧ i ≠ .pop d

/-- An instruction that leaves sfs alone writes SP or FP only as its destination. -/
theorem not_mem_writtenRegs_of_spares {i : Instr} {d : Reg} (hd : d = .sp ∨ d = .fp) (hi : SparesStackRegs i)
    (hs : touchesSfs i = false) : d ∉ writtenRegs i := by
  obtain ⟨hlit, hreg, hmem, -⟩ := hi d hd
  cases i with
  | movLitReg v e => exact fun h => hlit v (by rw [List.mem_singleton.mp h])
  | movRegReg r e => exact fun h => hreg r (by rw [List.mem_singleton.mp h])
  | movMemReg a e => exact fun h => hmem a (by rw [List.mem_singleton.mp h])
  | movRegMem _ _ | addRegReg _ _ | jmpNotEq _ _ | hlt => obtain rfl | rfl := hd <;> simp [writtenRegs]
  | pshLit _ | pshReg _ | pop _ | calLit _ | calReg _ | ret => cases hs

theorem exec_balance_of_not_touchesSfs {i : Instr} {s t : State} (hi : SparesStackRegs i) (hs : touchesSfs i = false)
    (h : exec i s = .next t) : balance t = balance s := by
  obtain ⟨hkept, hsfs, -, -⟩ := instructionsWriteOnlyTheirRegisters i s t h
  rw [balance, hkept .sp (not_mem_writtenRegs_of_spares (.inl rfl) hi hs),
    hkept .fp (not_mem_writtenRegs_of_spares (.inr rfl) hi hs), hsfs hs, balance]

theorem exec_pop_balance {d : Reg} {s t : State} (hi : SparesStackRegs (.pop d)) (h : exec (.pop d) s = .next t) :
    balance t = balance s := by
  obtain ⟨v, u, hu, rfl⟩ := exec_pop_eq_next.mp h
  obtain ⟨-, -, -, hsp⟩ := hi .sp (.inl rfl)
  obtain ⟨-, -, -, hfp⟩ := hi .fp (.inr rfl)
  rw [balance_setReg_of_ne (mt (congrArg _) hsp) (mt (congrArg _) hfp), balance_pop hu]

end Sys2Proof.Machine
end

section
/-!
PROOFS. The obligations of spec/44_call.md: the two calls, the return, the frame between them, the round trip, and the balance.
-/

namespace Sys2Proof.Machine

/-! ### CAL_LIT, CAL_REG and RET (R120 to R124) -/

/-- Settles O15: the execution is push_state and a jump to the literal; the operand is a word. -/
theorem calLitSavesFrameAndJumps : Obligations.CalLitSavesFrameAndJumps := by
  refine ⟨fun a s σ h0 => ⟨fun h => ?_, fun j => CallsTo.exec_of_failed_write (.inl rfl) h0⟩, fun s A σ h => ?_⟩
  · exact ⟨_, CallsTo.exec_of_writes (.inl rfl) h0 h, rfl, rfl, rfl, rfl, rfl, (called_keeps ..).regs, rfl, rfl⟩
  · exact wordOperand_of_bind (step_eq_executeOperands h) fun a τ h => h

/-- Settles O16: the execution is push_state and a jump to what the register holds before it; the operand is a register. -/
theorem calRegSavesFrameAndJumps : Obligations.CalRegSavesFrameAndJumps := by
  refine ⟨fun r s σ h0 => ⟨fun h => ?_, fun j => (callsTo_calReg s r).exec_of_failed_write h0⟩, fun s A σ h => ?_⟩
  · exact ⟨_, (callsTo_calReg s r).exec_of_writes h0 h, rfl, rfl, rfl, rfl, rfl, (called_keeps ..).regs, rfl, rfl⟩
  · exact regOperand_of_bind (step_eq_executeOperands h) fun r τ h => h

/-- Settles O17: the execution is pop_state, whose result is `returned`. -/
theorem retRestoresFrame : Obligations.RetRestoresFrame := by
  refine ⟨fun s w σ h0 => ⟨fun h => ?_, fun j hj h hf => ?_⟩, fun _ _ _ => step_ret_of_atOpcode⟩
  · exact ⟨returned s w _, finish_eq_next.mpr (popState_of_reads h0 h), rfl, rfl, rfl, rfl, rfl, rfl, rfl, rfl, rfl, rfl,
      rfl, rfl, rfl, rfl, rfl, rfl⟩
  · exact finish_eq_fault.mpr (popState_of_failed_read h0 hj h hf)

/-! ### The frame and the round trip (R125 to R128) -/

/-- Settles O18: the word `2 (j + 1)` above FP is the one that push number `9 - j` wrote. -/
theorem callLaysOutFrame : Obligations.CallLaysOutFrame := by
  intro i s cell hi hcell hapart
  obtain ⟨a, ha⟩ := exists_callsTo hi s
  have hframe : ∀ j, j < 10 → (calledOver s a cell).wordAt
      ((calledOver s a cell).reg .fp + BitVec.ofNat 16 (2 * (j + 1))) = some (frameWord s (9 - j)) := fun j hj =>
    (congrArg _ (popAddr_eq_fp_add ..).symm).trans (wordAt_calledOver_frame hj hcell hapart)
  exact ⟨calledOver s a cell, ha.exec_of_wordCells hcell, hframe 0 (by decide), hframe 1 (by decide), hframe 2 (by decide),
    hframe 3 (by decide), hframe 4 (by decide), hframe 5 (by decide), hframe 6 (by decide), hframe 7 (by decide),
    hframe 8 (by decide), hframe 9 (by decide), fun k hk => cellStates_read_other hk, cellStates_trace ..⟩

/-- Settles O19: the frame and the count are still there at the return, which pops what the call pushed. -/
theorem callThenReturnRoundTrips : Obligations.CallThenReturnRoundTrips := by
  intro i s a n cell hi hcell hapart hn
  have hframe : ∀ j, j < 10 → s.cfg.addressSpace.wordCell (pushAddr s j) = some (cell (j + 1)) := fun j hj => by
    rw [← hcell (j + 1) (by omega), ofNat_two_mul_succ, pushAddr, sub_add_eq_sub_sub, BitVec.add_sub_cancel]
  have hcount : s.cfg.addressSpace.wordCell (s.reg .sp + 2) = some (cell 0) := by simpa using hcell 0 (by decide)
  have hwords : ∀ j, j < 11 → (calledOver s a fun j => cell (j + 1)).wordAt
      (popAddr (calledOver s a fun j => cell (j + 1)) j) = some (matchingWord s n j) := fun j hj =>
    wordAt_calledOver_matching hj hframe (fun j l hjl hl => hapart _ _ (by omega) (by omega)) hcount
      (fun j hj => hapart _ _ (by omega) (by omega)) hn
  refine ⟨_, CallsTo.exec_of_wordCells hi hframe, rfl,
    fun k hk => cellStates_read_other fun j hj => hk (j + 1) (by omega) (by omega), fun u _ hfp hkept hargs => ?_⟩
  have hpop : popAddr u = popAddr (calledOver s a fun j => cell (j + 1)) := by
    funext j
    rw [popAddr, hfp, popAddr]
  have hret : exec .ret u = .next (returned u (matchingWord s n) u.space) :=
    exec_ret_of_wordAt (fun j hj => by rw [hpop, hkept j hj, hwords j hj]) (by rw [hpop]; exact hargs)
  have hcallee : u.reg .fp = s.reg .sp - 20 := hfp
  have hcaller : u.reg .fp + (s.sfs + 20) = s.reg .sp + s.sfs := by rw [hcallee]; bv_omega
  refine ⟨_, hret, rfl, rfl, rfl, rfl, rfl, rfl, rfl, rfl, rfl, ?sp, hcaller, ?chain, ?sfs, rfl, rfl⟩
  case sp =>
    show u.reg .fp + 22 + 2 * n = s.reg .sp + 2 + 2 * n
    rw [hcallee]
    bv_omega
  case chain =>
    show u.reg .fp + (s.sfs + 20) = s.reg .fp ↔ _
    rw [hcaller]
    exact eq_sub_iff_add_eq'.symm
  case sfs =>
    show s.sfs + 20 - 20 - 2 * n = s.sfs - 2 * n
    rw [BitVec.add_sub_cancel]

/-! ### The frame balance (R129) -/

/-- Settles O20: the instructions outside the frame rule of sfs are the two pushes, the pop, the calls and the return. -/
theorem frameBalanceDrifts : Obligations.FrameBalanceDrifts := by
  refine fun i s t h => ⟨fun hi => ?call, fun hi => ?ret, fun hlit hreg hret hspares => ?other⟩
  case call =>
    obtain ⟨a, ha⟩ := exists_callsTo hi s
    obtain ⟨u, hu, rfl⟩ := ha.exec_eq_next.mp h
    obtain ⟨σ, -, -, rfl⟩ := pushState_eq_ok hu
    exact balance_called s a (σ 10)
  case ret =>
    subst hi
    obtain ⟨w, σ, -, -, rfl⟩ := popState_eq_ok (finish_eq_next.mp h)
    exact balance_returned s w _
  case other =>
    cases i with
    | pshLit v => exact balance_push (finish_eq_next.mp h)
    | pshReg r => exact balance_push (finish_eq_next.mp h)
    | pop d => exact exec_pop_balance hspares h
    | calLit a => exact absurd rfl (hlit a)
    | calReg r => exact absurd rfl (hreg r)
    | ret => exact absurd rfl hret
    | movLitReg _ _ | movRegReg _ _ | movRegMem _ _ | movMemReg _ _ | addRegReg _ _ | jmpNotEq _ _ | hlt =>
      exact exec_balance_of_not_touchesSfs hspares rfl h

end Sys2Proof.Machine
end

section
/-!
SUPPORT. A step at a byte that decides it: HLT's opcode, a byte that no mnemonic has, no byte at all. What such a step leaves
unchanged, and runs that have ended.
-/

namespace Sys2Proof.Machine

/-! ### A step at HLT, at 0x00, at a byte that is no opcode and at none (R135 to R138) -/

theorem exec_hlt (s : State) : exec .hlt s = .next (s.setStatus .halted) := rfl

theorem step_hlt_of_atOpcode {s : State} {A : Word} {σ : DeviceState} (h : AtOpcode s .hlt A σ) :
    step s = .next ((s.fetchedTo (A + 1) σ).setStatus .halted) :=
  step_eq_executeOperands h

theorem opcodes_wf_of_cfg_wf {c : Config} (h : c.wf = true) : c.opcodes.wf = true := by
  obtain ⟨⟨hm, -⟩, -⟩ : (c.opcodes.wf = true ∧ _) ∧ _ := by simpa only [Config.wf, Bool.and_eq_true] using h
  exact hm

theorem step_of_atByte_zero {s : State} {A : Word} {σ : DeviceState} (h : AtByte s 0x00 A σ) :
    step s = .next ((s.fetchedTo (A + 1) σ).setStatus (.endOfProgram A)) := by
  obtain ⟨-, hzero, -⟩ := OpcodeMap.wf_iff.mp (opcodes_wf_of_cfg_wf h.1)
  rw [step_of_atByte_no_opcode h hzero, if_pos rfl, endProgram]

theorem step_of_atByte_unknown {s : State} {b : Byte} {A : Word} {σ : DeviceState} (h : AtByte s b A σ) (hb : b ≠ 0x00)
    (hk : ∀ k, s.cfg.opcodes.byte k ≠ b) : step s = .fault (.unknownOpcode b A) := by
  rw [step_of_atByte_no_opcode h hk, if_neg hb]

theorem fetchInstr_eq_error_of_fetch8 {s : State} {f : Fault} (h : fetch8 s = .error f) : fetchInstr s = .error f :=
  bind_eq_error.mpr (.inl h)

/-! ### The frame of a fetch (R25) -/

theorem regsKept_fetchedTo (s : State) (A : Word) (σ : DeviceState) : RegsKept s (s.fetchedTo A σ) [.ip] :=
  (setReg_keeps (s.setSpace σ) .ip A).regs

/-! ### Runs that have ended (R139, R166) -/

theorem goOn_next_of_not_running {run : State → Host.Outcome State Fault Refusal} {t : State} (h : t.status ≠ .running) :
    goOn run (.next t) = .next t := if_neg h

/-- A run that took a step and is not running at its end stopped before its bound: a larger bound makes no difference. -/
theorem runFor_of_le {fuel more : Nat} {s t : State} (hs : s.status = .running) (h : runFor fuel s = .next t)
    (ht : t.status ≠ .running) (hle : fuel ≤ more) : runFor more s = .next t := by
  induction fuel generalizing s more with
  | zero => cases h; exact absurd hs ht
  | succ fuel ih =>
    obtain ⟨more, rfl⟩ := Nat.exists_eq_succ_of_ne_zero (Nat.ne_zero_of_lt hle)
    obtain ⟨u, hu, ⟨hrun, hrest⟩ | ⟨hend, rfl⟩⟩ := goOn_eq_next h
    · rw [runFor_succ, hu, goOn_next_of_running hrun, ih hrun hrest (Nat.le_of_succ_le_succ hle)]
    · rw [runFor_succ, hu, goOn_next_of_not_running hend]

end Sys2Proof.Machine
end

section
/-!
SUPPORT. Instructions held in memory: the engine's fetches read them as the byte-string decoder does, and what the host places
in the default address space is held there.
-/

namespace Sys2Proof

open Machine

/-! ### Operand fields under either policy (R75, R77) -/

theorem eq_cons_of_takeReg {p : OrdinalPolicy} {bs rest : List Byte} {r : Reg} (h : takeReg p bs = .ok (r, rest)) :
    ∃ b, bs = b :: rest ∧ regOfByte p b = some r := by
  cases bs with
  | nil => cases h
  | cons b bs =>
    rw [takeReg] at h
    split at h
    · rename_i hr
      cases h
      exact ⟨b, rfl, hr⟩
    · cases h

/-- The operands decoded for a mnemonic, from any source, are those of an instruction of that mnemonic. -/
theorem mnemonic_of_decodeOperands {σ ε : Type} {f16 : σ → Except ε (Word × σ)} {fReg : σ → Except ε (Reg × σ)}
    {k : Mnemonic} {a a' : σ} {i : Instr} (h : decodeOperands f16 fReg k a = .ok (i, a')) : i.mnemonic = k := by
  cases k <;> simp only [decodeOperands, bind_eq_ok, Prod.exists, Except.ok.injEq, Prod.mk.injEq] at h
  case movLitReg | movRegReg | movRegMem | movMemReg | addRegReg | jmpNotEq =>
    obtain ⟨_, _, -, _, _, -, rfl, -⟩ := h
    rfl
  case pshLit | pshReg | pop | calLit | calReg =>
    obtain ⟨_, _, -, rfl, -⟩ := h
    rfl
  case ret | hlt =>
    obtain ⟨rfl, -⟩ := h
    rfl

/-- At each of the offsets, where `R` relates two sources with that many bytes of an instruction fetched, the second answers
what the first does, and `R` relates them past the field. -/
abbrev FieldsSimulate {σ τ ε δ α : Type} (R : Nat → σ → τ → Prop) (offsets : List Nat) (size : Nat)
    (f : σ → Except ε (α × σ)) (g : τ → Except δ (α × τ)) : Prop :=
  ∀ n ∈ offsets, ∀ {a b x a'}, R n a b → f a = .ok (x, a') → ∃ b', g b = .ok (x, b') ∧ R (n + size) a' b'

/-- Two sources that answer alike at each operand field give the same instruction. -/
theorem decodeOperands_simulates {σ τ ε δ : Type} {f16 : σ → Except ε (Word × σ)} {fReg : σ → Except ε (Reg × σ)}
    {g16 : τ → Except δ (Word × τ)} {gReg : τ → Except δ (Reg × τ)} {R : Nat → σ → τ → Prop} {k : Mnemonic}
    (h16 : FieldsSimulate R (wordFields k) 2 f16 g16) (hReg : FieldsSimulate R (byteFields k) 1 fReg gReg)
    {a a' : σ} {b : τ} {i : Instr} (hR : R 1 a b) (h : decodeOperands f16 fReg k a = .ok (i, a')) :
    ∃ b', decodeOperands g16 gReg k b = .ok (i, b') ∧ R k.length a' b' := by
  cases k <;> simp only [decodeOperands, bind_eq_ok, Prod.exists, Except.ok.injEq, Prod.mk.injEq] at h
  case movLitReg | movMemReg =>
    obtain ⟨v, _, hv, r, _, hr, rfl, rfl⟩ := h
    obtain ⟨b₁, hv, hR⟩ := h16 1 (by decide) hR hv
    obtain ⟨b₂, hr, hR⟩ := hReg 3 (by decide) hR hr
    exact ⟨b₂, by simp only [decodeOperands, hv, hr, ok_bind], hR⟩
  case movRegMem =>
    obtain ⟨r, _, hr, v, _, hv, rfl, rfl⟩ := h
    obtain ⟨b₁, hr, hR⟩ := hReg 1 (by decide) hR hr
    obtain ⟨b₂, hv, hR⟩ := h16 2 (by decide) hR hv
    exact ⟨b₂, by simp only [decodeOperands, hv, hr, ok_bind], hR⟩
  case movRegReg | addRegReg =>
    obtain ⟨r, _, hr, q, _, hq, rfl, rfl⟩ := h
    obtain ⟨b₁, hr, hR⟩ := hReg 1 (by decide) hR hr
    obtain ⟨b₂, hq, hR⟩ := hReg 2 (by decide) hR hq
    exact ⟨b₂, by simp only [decodeOperands, hr, hq, ok_bind], hR⟩
  case jmpNotEq =>
    obtain ⟨v, _, hv, w, _, hw, rfl, rfl⟩ := h
    obtain ⟨b₁, hv, hR⟩ := h16 1 (by decide) hR hv
    obtain ⟨b₂, hw, hR⟩ := h16 3 (by decide) hR hw
    exact ⟨b₂, by simp only [decodeOperands, hv, hw, ok_bind], hR⟩
  case pshLit | calLit =>
    obtain ⟨v, _, hv, rfl, rfl⟩ := h
    obtain ⟨b₁, hv, hR⟩ := h16 1 (by decide) hR hv
    exact ⟨b₁, by simp only [decodeOperands, hv, ok_bind], hR⟩
  case pshReg | pop | calReg =>
    obtain ⟨r, _, hr, rfl, rfl⟩ := h
    obtain ⟨b₁, hr, hR⟩ := hReg 1 (by decide) hR hr
    exact ⟨b₁, by simp only [decodeOperands, hr, ok_bind], hR⟩
  case ret | hlt =>
    obtain ⟨rfl, rfl⟩ := h
    exact ⟨b, rfl, hR⟩

/-! ### Where an instruction's fields lie (R77) -/

theorem Mnemonic.length_le_five (k : Mnemonic) : k.length ≤ 5 := by cases k <;> decide

theorem zero_mem_byteFields (k : Mnemonic) : 0 ∈ byteFields k := by cases k <;> decide

theorem lt_length_of_mem_byteFields {k : Mnemonic} : ∀ n ∈ byteFields k, n < k.length := by cases k <;> decide

theorem succ_lt_length_of_mem_wordFields {k : Mnemonic} : ∀ n ∈ wordFields k, n + 1 < k.length := by cases k <;> decide

/-! ### The instruction of a table word -/

theorem length_tableBytes (nbits w : Nat) : (tableBytes nbits w).length = 5 := rfl

theorem decodeTableWord_eq_some {nbits w : Nat} {i : Instr} :
    decodeTableWord nbits w = some i ↔ ∃ rest, decode OpcodeMap.default .fault (tableBytes nbits w) = .ok (i, rest) := by
  rw [decodeTableWord]
  split <;> simp [*]

/-! ### The default address space (R68) -/

theorem Device.byteCell_default (a : Word) : Device.default.byteCell a = some a.toNat := by
  rw [Device.byteCell, Device.resolve_default, Device.resolve]
  exact (if_pos a.isLt).trans (congrArg some (cellKey_zero _))

theorem Device.wordCell_default {a : Word} (h : a.toNat + 1 < 65536) : Device.default.wordCell a = some a.toNat := by
  rw [Device.wordCell, Device.resolve_default, Device.resolve]
  exact (if_pos h).trans (congrArg some (cellKey_zero _))

namespace Machine

/-! ### The engine's fetches beside the byte-string decoder's (R72, R138) -/

/-- `n` bytes of the code that stands at `A` are fetched: the decoder has the rest before it, the engine has IP past them. -/
def FetchedSoFar (s : State) (A : Word) (code : List Byte) (n : Nat) (rest : List Byte) (t : State) : Prop :=
  (∃ done, done.length = n ∧ code = done ++ rest) ∧ t = s.fetchedTo (A + BitVec.ofNat 16 n) s.space

theorem byteOf_append (done : List Byte) (b : Byte) (rest : List Byte) : byteOf (done ++ b :: rest) done.length = b := by
  simp [byteOf]

theorem FetchedSoFar.fetch16 {s t : State} {A v : Word} {code bs rest : List Byte} {n : Nat}
    (hword : s.wordAt (A + BitVec.ofNat 16 n) = some (joinBytes (byteOf code n) (byteOf code (n + 1))))
    (h : FetchedSoFar s A code n bs t) (hv : takeWord bs = .ok (v, rest)) :
    ∃ u, Machine.fetch16 t = .ok (v, u) ∧ FetchedSoFar s A code (n + 2) rest u := by
  obtain ⟨⟨done, rfl, rfl⟩, rfl⟩ := h
  obtain rfl := takeWord_eq_ok.mp hv
  have hhi : byteOf (done ++ (encodeWord v ++ rest)) done.length = hi8 v := byteOf_append done _ _
  have hlo : byteOf (done ++ (encodeWord v ++ rest)) (done.length + 1) = lo8 v := by simp [byteOf, encodeWord]
  rw [hhi, hlo, joinBytes_hi_lo] at hword
  refine ⟨_, fetch16_of_wordAt hword, ⟨done ++ encodeWord v, by simp [encodeWord], by simp⟩, ?_⟩
  rw [BitVec.ofNat_add, ← BitVec.add_assoc]
  rfl

theorem FetchedSoFar.fetchReg {s t : State} {A : Word} {r : Reg} {code bs rest : List Byte} {n : Nat}
    (hbyte : s.byteAt (A + BitVec.ofNat 16 n) = some (byteOf code n))
    (h : FetchedSoFar s A code n bs t) (hr : takeReg s.cfg.ordinals bs = .ok (r, rest)) :
    ∃ u, Machine.fetchReg t = .ok (r, u) ∧ FetchedSoFar s A code (n + 1) rest u := by
  obtain ⟨⟨done, rfl, rfl⟩, rfl⟩ := h
  obtain ⟨b, rfl, hb⟩ := eq_cons_of_takeReg hr
  rw [byteOf_append] at hbyte
  refine ⟨_, fetchReg_of_byteAt hbyte hb, ⟨done ++ [b], by simp, by simp⟩, ?_⟩
  rw [BitVec.ofNat_add, ← BitVec.add_assoc]
  rfl

/-- A step at code that memory devices hold runs the instruction that the decoder reads from it, past that instruction's
bytes. -/
theorem step_of_decode {s : State} {code rest : List Byte} {i : Instr} (hw : s.cfg.wf = true) (hs : s.status = .running)
    (hd : decode s.cfg.opcodes s.cfg.ordinals code = .ok (i, rest)) (hc : CodeAt s i.mnemonic (s.reg .ip) code) :
    code.length = i.mnemonic.length + rest.length ∧
      step s = exec i (s.fetchedTo (s.reg .ip + BitVec.ofNat 16 i.mnemonic.length) s.space) := by
  obtain ⟨hbytes, hwords⟩ := hc
  obtain ⟨b, bs, k, rfl, hk, ho⟩ := decode_eq_ok.mp hd
  obtain rfl := mnemonic_of_decodeOperands ho
  have hopcode : s.byteAt (s.reg .ip) = some (s.cfg.opcodes.byte i.mnemonic) := by
    rw [decodeOpcode_eq_instr hk, ← BitVec.add_zero (s.reg .ip)]
    exact hbytes 0 (zero_mem_byteFields _)
  obtain ⟨u, hu, ⟨done, hn, hcode⟩, rfl⟩ :=
    decodeOperands_simulates (R := FetchedSoFar s (s.reg .ip) (b :: bs)) (fun n hn => FetchedSoFar.fetch16 (hwords n hn))
      (fun n hn => FetchedSoFar.fetchReg (hbytes n hn)) ⟨⟨[b], rfl, rfl⟩, rfl⟩ ho
  refine ⟨by rw [hcode, List.length_append, hn], ?_⟩
  rw [step_eq_executeOperands ⟨hw, hs, rfl, readU8_of_byteAt hopcode⟩]
  exact congrArg executeOperands hu

/-! ### Code that the host places in the default address space (log 17) -/

theorem placeBytes_default {a : Word} {bs : List Byte} (h : a.toNat + bs.length ≤ 65536) (m : Memory) :
    placeBytes Device.default a bs m = m.writeBytes a.toNat bs := by
  induction bs generalizing a m with
  | nil => rfl
  | cons b bs ih =>
    rw [placeBytes, Device.byteCell_default, Memory.writeBytes]
    cases bs with
    | nil => rfl
    | cons c bs =>
      have ha : (a + 1).toNat = a.toNat + 1 := by
        simp only [List.length_cons] at h
        bv_omega
      rw [ih (by simp only [List.length_cons] at h ⊢; omega), ha]

theorem toNat_add_ofNat {a : Word} {n : Nat} (h : a.toNat + n < 65536) : (a + BitVec.ofNat 16 n).toNat = a.toNat + n := by
  simp only [BitVec.toNat_add, BitVec.toNat_ofNat]
  omega

section
variable {s : State} {code : List Byte} {n : Nat} (hd : s.cfg.addressSpace = Device.default)
  (hip : (s.reg .ip).toNat + code.length ≤ 65536)
include hd hip

theorem read_placeCode (hn : n < code.length) :
    (s.placeCode code).space.mem.read ((s.reg .ip).toNat + n) = byteOf code n := by
  show Memory.read (placeBytes s.cfg.addressSpace (s.reg .ip) code s.space.mem) _ = _
  rw [hd, placeBytes_default hip, Memory.read_writeBytes, if_pos (Nat.le_add_right ..), Nat.add_sub_cancel_left, byteOf,
    List.getD_eq_getElem _ _ hn, List.getD_eq_getElem _ _ hn]

theorem byteAt_placeCode (hn : n < code.length) :
    (s.placeCode code).byteAt (s.reg .ip + BitVec.ofNat 16 n) = some (byteOf code n) := by
  show (s.cfg.addressSpace.byteCell _).map _ = _
  rw [hd, Device.byteCell_default, Option.map_some, toNat_add_ofNat (by omega), read_placeCode hd hip hn]

theorem wordAt_placeCode (hn : n + 1 < code.length) :
    (s.placeCode code).wordAt (s.reg .ip + BitVec.ofNat 16 n) = some (joinBytes (byteOf code n) (byteOf code (n + 1))) := by
  have ha := toNat_add_ofNat (a := s.reg .ip) (n := n) (by omega)
  show (s.cfg.addressSpace.wordCell _).map _ = _
  rw [hd, Device.wordCell_default (by omega), Option.map_some, ha, Memory.readWord, read_placeCode hd hip (Nat.lt_of_succ_lt hn),
    Nat.add_assoc, read_placeCode hd hip hn]

/-- Code placed at IP is held there, for an instruction no longer than it. -/
theorem codeAt_placeCode {k : Mnemonic} (hk : k.length ≤ code.length) : CodeAt (s.placeCode code) k (s.reg .ip) code :=
  ⟨fun n hn => byteAt_placeCode hd hip (Nat.lt_of_lt_of_le (lt_length_of_mem_byteFields n hn) hk),
   fun n hn => wordAt_placeCode hd hip (Nat.lt_of_lt_of_le (succ_lt_length_of_mem_wordFields n hn) hk)⟩

end

theorem cfg_placeCode_default {s : State} (hd : s.cfg.addressSpace = Device.default) (hp : s.cfg.ordinals = .fault)
    (code : List Byte) : (s.placeCode code).cfg = Config.default := by
  simp only [State.placeCode, Config.default, hd, hp]

end Machine
end Sys2Proof
end

section
/-!
PROOFS. The obligations of spec/45_system.md: HLT, the end of the program, the bytes that fault, the step's fetch, and the run
that halts.
-/

namespace Sys2Proof.Machine

/-! ### The bytes that end a step (R135 to R138) -/

/-- Settles O21: the execution sets the status alone, and the fetch before it moves IP and the address space alone. -/
theorem hltHalts : Obligations.HltHalts := by
  refine ⟨fun s => ⟨_, exec_hlt s, rfl, fun _ _ => rfl, rfl, rfl, rfl⟩, fun s A σ h => ?_⟩
  have hstep := step_hlt_of_atOpcode h
  exact ⟨_, hstep, by rw [hstep]; rfl, rfl, regsKept_fetchedTo s _ σ, rfl, rfl, rfl⟩

/-- Settles O22: no admitted map gives 0x00 to a mnemonic, and the fetch moves IP and the address space alone. -/
theorem zeroByteEndsProgram : Obligations.ZeroByteEndsProgram := by
  intro s A σ h
  have hstep := step_of_atByte_zero h
  exact ⟨_, hstep, by rw [hstep]; rfl, rfl, regsKept_fetchedTo s _ σ, rfl, rfl, rfl⟩

/-- Settles O23: no admitted map gives 0xEE to a mnemonic. -/
theorem unknownByteFaults : Obligations.UnknownByteFaults := by
  refine ⟨fun s b A σ h hb hk => step_of_atByte_unknown h hb hk, fun s A σ h => ?_⟩
  obtain ⟨-, -, hEE⟩ := OpcodeMap.wf_iff.mp (opcodes_wf_of_cfg_wf h.1)
  exact step_of_atByte_unknown h (by decide) hEE

/-- Settles O24: the opcode fetch is the first thing a step does, and its error ends the step. -/
theorem unreadableOpcodeFaults : Obligations.UnreadableOpcodeFaults := by
  intro s hw hs hr
  rw [step_of_running hw hs, fetchInstr_eq_error_of_fetch8 (fetch8_eq_error.mpr ⟨hr, rfl⟩), execute_error]

/-! ### The instruction a step runs (R138) -/

/-- Settles O26: with no bytes left over, the code is as long as its instruction. -/
theorem stepRunsDecodedInstruction : Obligations.StepRunsDecodedInstruction := by
  intro s code i hw hs hd hc
  obtain ⟨hlen, hstep⟩ := step_of_decode hw hs hd hc
  rw [hstep, show code.length = i.mnemonic.length from hlen]

/-- Settles O27: the five placed bytes hold the whole instruction at IP, whatever the bytes after it. -/
theorem fetchWordIsNextInstruction : Obligations.FetchWordIsNextInstruction := by
  intro s nbits w i hd hp hip hi
  obtain ⟨rest, hdec⟩ := decodeTableWord_eq_some.mp hi
  have hcfg : (s.withFetchWord nbits w).cfg = Config.default := cfg_placeCode_default hd hp _
  have hcode : CodeAt (s.withFetchWord nbits w) i.mnemonic (s.reg .ip) (tableBytes nbits w) :=
    codeAt_placeCode (code := tableBytes nbits w) hd hip i.mnemonic.length_le_five
  exact (step_of_decode (by rw [hcfg]; decide) rfl (by rw [hcfg]; exact hdec) hcode).2

/-! ### A run that halts (R139, R166) -/

/-- Settles O52: a run that has halted is not running at its end, so that every longer run ends where it did. -/
theorem haltEndsTheRun : Obligations.HaltEndsTheRun := by
  rintro fuel s t hs ⟨hrun, hhalted⟩
  refine ⟨fun more hle => runFor_of_le hs hrun (by simp [hhalted]) hle, fun hhangs => ?_⟩
  obtain ⟨u, hu, hrunning⟩ := hhangs fuel
  cases hrun.symm.trans hu
  cases hhalted.symm.trans hrunning

end Sys2Proof.Machine
end

section
/-!
SUPPORT. How a step ends: the outcome of an interface outcome, that no meaning and no step of a run is refused, and the byte at
IP behind each status.
-/

namespace Sys2Proof.Machine

/-! ### R140's outcome of an outcome of the interface -/

theorem StepOutcome.of?_next_of_running {t : State} (h : t.status = .running) :
    StepOutcome.of? (.next t) = some (.continues t) := by simp only [StepOutcome.of?, h]

theorem StepOutcome.of?_next_of_halted {t : State} (h : t.status = .halted) :
    StepOutcome.of? (.next t) = some (.halts t) := by simp only [StepOutcome.of?, h]

theorem StepOutcome.of?_next_of_endOfProgram {t : State} {a : Word} (h : t.status = .endOfProgram a) :
    StepOutcome.of? (.next t) = some (.endsProgram t a) := by simp only [StepOutcome.of?, h]

theorem StepOutcome.of?_fault (f : Fault) : StepOutcome.of? (.fault f) = some (.faults f) := rfl

/-! ### Nothing is refused in a run -/

/-- Every instruction has a meaning: it answers, or it ends an operation that does or raises. -/
theorem exec_ne_refused (i : Instr) (s : State) (q : Refusal) : exec i s ≠ .refused q := by
  cases i with
  | movRegMem _ _ | movMemReg _ _ | pshLit _ | pshReg _ | pop _ | calLit _ | calReg _ | ret => exact finish_ne_refused
  | movLitReg _ _ | movRegReg _ _ | addRegReg _ _ | jmpNotEq _ _ | hlt => nofun

/-- A step of a run is refused by neither check, and what it fetched is not refused either. -/
theorem step_ne_refused {s : State} (hw : s.cfg.wf = true) (hs : s.status = .running) (q : Refusal) :
    step s ≠ .refused q := by
  rw [step_of_running hw hs]
  rcases fetchInstr s with f | ⟨i | a, u⟩
  · nofun
  · exact exec_ne_refused i u q
  · nofun

/-! ### The byte at IP behind a step that answers (R83, R140) -/

theorem Instr.mnemonic_eq_hlt_iff {i : Instr} : i.mnemonic = .hlt ↔ i = .hlt := by
  cases i <;> simp [Instr.mnemonic]

/-- HLT alone ends the run in execution. -/
theorem exec_status {i : Instr} {s t : State} (h : exec i s = .next t) :
    t.status = if i = .hlt then .halted else s.status := by
  obtain ⟨-, -, -, hstatus⟩ := instructionsWriteOnlyTheirRegisters i s t h
  exact hstatus

/-- A byte access at IP, the one of the opcode fetch, answers `b`. -/
abbrev OpcodeByteIs (s : State) (b : Byte) : Prop :=
  ∃ σ, s.cfg.addressSpace.readU8 (s.reg .ip) s.space = some (b, σ)

/-- What a step that answers fetched at IP: HLT's opcode when it halted, 0x00 when it ended the program, another opcode when it
goes on. -/
theorem step_next_opcodeByte {s t : State} (h : step s = .next t) :
    (t.status = .halted ∧ OpcodeByteIs s (s.cfg.opcodes.byte .hlt)) ∨
    (t.status = .endOfProgram (s.reg .ip) ∧ OpcodeByteIs s 0x00) ∨
    (t.status = .running ∧ ∃ k, k ≠ .hlt ∧ OpcodeByteIs s (s.cfg.opcodes.byte k)) := by
  obtain ⟨-, hs, a, σ, -, ⟨i, hf, hx⟩ | ⟨b, hf, rfl⟩⟩ := step_eq_next h
  · obtain ⟨hbyte, -⟩ := fetchInstr_performs hf
    have hstatus := exec_status hx
    by_cases hi : i = .hlt
    · subst hi
      exact .inl ⟨hstatus, hbyte⟩
    · rw [if_neg hi] at hstatus
      exact .inr (.inr ⟨hstatus.trans hs, i.mnemonic, mt Instr.mnemonic_eq_hlt_iff.mp hi, hbyte⟩)
  · obtain ⟨rfl, τ, hbyte, -⟩ := fetchInstr_endOfProgram hf
    exact .inr (.inl ⟨rfl, τ, hbyte⟩)

end Sys2Proof.Machine
end

section
/-!
PROOFS. The obligations of spec/60_exceptions.md: the data errors of each instruction, and the one outcome of a step.
-/

namespace Sys2Proof.Machine

/-- Settles O44, an instruction's errors being those of the one shared operation that it calls (R142). -/
theorem dataFaultsAreThoseOfTheTable : Obligations.DataFaultsAreThoseOfTheTable := by
  refine fun i s => ⟨exec_ne_refused i s, fun f h => ?_⟩
  cases i with
  | movRegMem r a => exact .inl ⟨r, a, rfl, (memWrite16_eq_error.mp (finish_eq_fault.mp h)).2⟩
  | movMemReg a d => exact .inr (.inl ⟨a, d, rfl, (memRead16_eq_error.mp (exec_movMemReg_eq_fault.mp h)).2⟩)
  | pshLit v => exact .inr (.inr (.inl ⟨.inl ⟨v, rfl⟩, (push_eq_error.mp (finish_eq_fault.mp h)).2⟩))
  | pshReg r => exact .inr (.inr (.inl ⟨.inr ⟨r, rfl⟩, (push_eq_error.mp (finish_eq_fault.mp h)).2⟩))
  | pop d => exact .inr (.inr (.inr (.inl ⟨⟨d, rfl⟩, (pop_eq_error.mp (exec_pop_eq_fault.mp h)).2⟩)))
  | calLit a =>
    exact .inr (.inr (.inr (.inr (.inl ⟨.inl ⟨a, rfl⟩, pushState_eq_error (exec_calLit_eq_fault.mp h)⟩))))
  | calReg r =>
    exact .inr (.inr (.inr (.inr (.inl ⟨.inr ⟨r, rfl⟩, pushState_eq_error (exec_calReg_eq_fault.mp h)⟩))))
  | ret => exact .inr (.inr (.inr (.inr (.inr ⟨rfl, popState_eq_error (finish_eq_fault.mp h)⟩))))
  | movLitReg _ _ | movRegReg _ _ | addRegReg _ _ | jmpNotEq _ _ | hlt => cases h

/-- Settles O47: the status of the next state names the outcome, and each status has its byte at IP. -/
theorem stepReturnsOneOutcome : Obligations.StepReturnsOneOutcome := by
  intro s hw hs
  rcases hstep : step s with t | f | q
  · obtain ⟨ht, hbyte⟩ | ⟨ht, hbyte⟩ | ⟨ht, k, hk, σ, hbyte⟩ := step_next_opcodeByte hstep
    · exact ⟨_, StepOutcome.of?_next_of_halted ht, fun _ _ => hbyte, nofun, nofun⟩
    · exact ⟨_, StepOutcome.of?_next_of_endOfProgram ht, nofun, fun _ _ ho => by cases ho; exact ⟨rfl, hbyte⟩, nofun⟩
    · exact ⟨_, StepOutcome.of?_next_of_running ht, nofun, nofun, fun _ _ => ⟨k, σ, hk, hbyte⟩⟩
  · exact ⟨_, StepOutcome.of?_fault f, nofun, nofun, nofun⟩
  · exact absurd hstep (step_ne_refused hw hs q)

end Sys2Proof.Machine
end

section
/-!
SUPPORT. Loading an image: the bytes it leaves in memory, and that an image which fits keeps the contents canonical and
backed.
-/

namespace Sys2Proof.Machine

/-- Each of the bytes written stands at its own key. -/
theorem Memory.read_writeBytes_getElem (m : Memory) (k : Nat) {bs : List Byte} {j : Nat} (hj : j < bs.length) :
    (m.writeBytes k bs).read (k + j) = bs[j] := by
  rw [Memory.read_writeBytes, if_pos (Nat.le_add_right k j), Nat.add_sub_cancel_left]
  exact (List.getElem_eq_getD _).symm

/-- A key that none of the bytes is written to reads as before. -/
theorem Memory.read_writeBytes_other (m : Memory) {k q : Nat} {bs : List Byte} (h : ∀ j, j < bs.length → q ≠ k + j) :
    (m.writeBytes k bs).read q = m.read q := by
  rw [Memory.read_writeBytes]
  split
  · rename_i hle
    have hlen : bs.length ≤ q - k := Nat.le_of_not_lt fun hlt => h _ hlt (Nat.add_sub_cancel' hle).symm
    exact List.getD_eq_default _ _ hlen
  · rfl

/-- Each byte of an image that fits goes to a byte of a memory device of the tree (R44). -/
theorem backs_of_fits {d : Device} {img : Image} (hf : img.fits d = true) {j : Nat} (hj : j < img.bytes.length) :
    backs d (cellKey img.primary (img.offset.toNat + j)) = true := by
  obtain hnil | hle := Image.fits_iff.mp hf
  · simp [hnil] at hj
  · exact backs_cellKey (by omega)

/-- The bytes of an image that fits, loaded, keep the contents canonical and backed. -/
theorem MemoryInv.writeBytes {d : Device} {m : Memory} {img : Image} (hf : img.fits d = true) (hm : MemoryInv d m) :
    MemoryInv d (m.writeBytes (cellKey img.primary img.offset.toNat) img.bytes) := by
  obtain ⟨hwf, hb⟩ := hm
  refine ⟨Memory.wf_writeBytes hwf _ _, fun c hc => ?_⟩
  obtain ⟨hle, hlt⟩ | hc := Memory.mem_writeBytes hc
  · obtain ⟨j, hj⟩ := Nat.exists_eq_add_of_le hle
    rw [hj, ← cellKey_add]
    exact backs_of_fits hf (by omega)
  · exact hb c hc

end Sys2Proof.Machine
end

section
/-!
PROOFS. The obligations of spec/70_reset_and_hazards.md: what boot loads, and the invariant at the start of a run.
-/

namespace Sys2Proof.Machine

/-- Settles O43: the state that boot answers is the construction over the initial contents with the image's bytes written. -/
theorem loadImagePlacesBytes : Obligations.LoadImagePlacesBytes := by
  intro cfg entry img initial size key
  have hkey : ∀ j, key j = cellKey img.primary img.offset.toNat + j := cellKey_add _ _
  refine ⟨fun hfit => ?_, fun hne hlt => ?_⟩
  · refine ⟨_, boot_eq_some.mpr ⟨Image.fits_iff.mpr hfit, rfl⟩, rfl, rfl, fun j hj => ?_, fun k hk => ?_⟩
    · rw [hkey]
      exact Memory.read_writeBytes_getElem initial _ hj
    · simp only [hkey] at hk
      exact Memory.read_writeBytes_other initial hk
  · rw [boot_eq_none, ← Bool.not_eq_true, Image.fits_iff]
    exact not_or.mpr ⟨hne, Nat.not_le.mpr hlt⟩

/-- Settles O58: construction writes no memory, so the contents are the initial ones with a fitting image loaded. -/
theorem bootMeetsTheInvariant : Obligations.BootMeetsTheInvariant := by
  intro cfg entry img initial s hw hwf hb hs
  obtain ⟨hf, rfl⟩ := boot_eq_some.mp hs
  exact inv_iff.mpr ⟨hw, MemoryInv.writeBytes hf ⟨hwf, hb⟩⟩

end Sys2Proof.Machine
end
